-- ==== Sys2Proof/Word.lean ====
section
/-!
DEFINITION. The word types of CH-AES256-CBC-PKCS7 (spec/00_scope.md R10, R11) and the two shapes the cipher's data
have: a four-byte word of the key schedule and a 16-byte block held as the 4x4 byte state of spec/41_block_cipher.md
R121. Field extraction, byte order and every operation on these types stand in Machine/.
-/

namespace Sys2Proof

/-- A byte (R10). -/
abbrev Byte := BitVec 8

/-- A register value, a write datum or a read response: 32 unsigned bits (R11). -/
abbrev Word32 := BitVec 32

/-- OFF[17:0], a byte offset into a unit's window (R50). -/
abbrev Offset := BitVec 18

/-- Four bytes: one column of the cipher state (R121), or one word of the key schedule (R132); byte `b<r>` is row r. -/
structure AesWord where
  b0 : Byte
  b1 : Byte
  b2 : Byte
  b3 : Byte
  deriving DecidableEq, Repr

/-- A 16-byte block as the state s[r][c] of R121, column by column: `c<c>.b<r>` is s[r][c]. -/
structure Block where
  c0 : AesWord
  c1 : AesWord
  c2 : AesWord
  c3 : AesWord
  deriving DecidableEq, Repr

/-- Four zero bytes. -/
abbrev AesWord.zero : AesWord := ⟨0, 0, 0, 0⟩

/-- Sixteen zero bytes; IV0 is this block (R8). -/
abbrev Block.zero : Block := ⟨.zero, .zero, .zero, .zero⟩

end Sys2Proof
end

