-- ==== Sys2Proof/Config.lean ====
section
/-!
DEFINITION. What an implementation fixes and what the spec leaves free. The parameters of spec/00_scope.md R9 are plain
data, held in State, so that every claim is made for every legal value; the draws (20_memory.md R59, 42_encrypt.md
R163) are opaque constants applied to a counter of State.
-/

namespace Sys2Proof

/-- The parameters the model takes as arguments (R9). `unitBase` lists UNIT_BASE(u) for u = 0, 1, …; N_UNITS is its
length. -/
structure Params where
  maxIn : Nat
  cipherFaultPossible : Bool
  unitBase : List Nat
  deriving DecidableEq, Repr

/-- N_UNITS (R9). -/
def Params.nUnits (p : Params) : Nat := p.unitBase.length

/-- OUT_CAP = MAX_IN + 16 (R9). -/
def Params.outCap (p : Params) : Nat := p.maxIn + 16

namespace Config

/-- DESIGN CHOICE (log 1), unsafe: the parameters of `State.reset`: MAX_IN and CIPHER_FAULT_POSSIBLE as R9 suggests them,
and one unit whose window stands at platform address 0. Statements quantify over every `Params` instead. -/
def resetParams : Params := { maxIn := 4096, cipherFaultPossible := false, unitBase := [0] }

/-- FREE VALUE (log 2), safe: the word the n-th draw of a read while busy gives (R59); no body, so nothing constrains it. -/
opaque freeWord : Nat → Word32

/-- FREE VALUE (log 2), safe: whether the n-th draw makes the cipher primitive fail (R163, 93 item 2); no body. -/
opaque freeFault : Nat → Bool

end Config

end Sys2Proof
end

