-- ==== Sys2Proof/Syntax.lean ====
section
/-!
DEFINITION. The instructions: one constructor per row of spec/opcode_table.json (30_encoding.md R83). Operands are the
fields each rule names under "Operands": a CMD word has none (R86); a read has OFF, its WDATA being ignored (R82, R210);
a write has OFF and WDATA (R213-R215).
-/

namespace Sys2Proof

/-- The ten instructions (R83). -/
inductive Instr where
  /-- ENCRYPT (42_encrypt.md R163). -/
  | encrypt
  /-- DECRYPT (43_decrypt.md R182). -/
  | decrypt
  /-- DERIVE_KEY (40_key_derivation.md R105). -/
  | deriveKey
  /-- ZEROIZE (44_control.md R204). -/
  | zeroize
  /-- RD8 (45_host_access.md R210). -/
  | rd8 (off : Offset)
  /-- RD16 (R211). -/
  | rd16 (off : Offset)
  /-- RD32 (R212). -/
  | rd32 (off : Offset)
  /-- WR8 (R213). -/
  | wr8 (off : Offset) (wdata : Word32)
  /-- WR16 (R214). -/
  | wr16 (off : Offset) (wdata : Word32)
  /-- WR32 (R215). -/
  | wr32 (off : Offset) (wdata : Word32)
  deriving DecidableEq, Repr

/-- The two instruction formats (R80). A decoder knows the format from context: an engine reads CMD words, a host issues
BUSREQs. -/
inductive Format where
  | cmd
  | busreq
  deriving DecidableEq, Repr

/-- The format an instruction is encoded in (R83). -/
def Instr.format : Instr → Format
  | .encrypt => .cmd
  | .decrypt => .cmd
  | .deriveKey => .cmd
  | .zeroize => .cmd
  | .rd8 _ => .busreq
  | .rd16 _ => .busreq
  | .rd32 _ => .busreq
  | .wr8 _ _ => .busreq
  | .wr16 _ _ => .busreq
  | .wr32 _ _ => .busreq

end Sys2Proof
end

