-- ==== Sys2Proof/WellFormed.lean ====
section
/-!
DEFINITION. The well-formedness checks. An instruction's fields have exactly the widths of its format, so every term of
`Instr` is well-formed and no check on it can fail; what can be ill-formed is the machine's parameters (00_scope.md R9).
-/

namespace Sys2Proof

/-- Windows of 2^18 bytes at bases `a` and `b` do not overlap (R50, R232; DEDUCED, log 9). -/
def windowsDisjoint (a b : Nat) : Bool := decide (a + 2 ^ 18 ≤ b) || decide (b + 2 ^ 18 ≤ a)

/-- No window of the list overlaps another (log 9). -/
def allDisjoint : List Nat → Bool
  | [] => true
  | a :: l => l.all (windowsDisjoint a) && allDisjoint l

/-- The parameters are legal (R9): 16 ≤ MAX_IN ≤ 65520, MAX_IN a multiple of 16, at least one unit, and windows a
platform address can tell apart. -/
def Params.wf (p : Params) : Bool :=
  decide (16 ≤ p.maxIn) && decide (p.maxIn ≤ 65520) && decide (p.maxIn % 16 = 0) && decide (1 ≤ p.nUnits) &&
    allDisjoint p.unitBase

/-- Every term of `Instr` is well-formed: OFF is 18 bits and WDATA 32 bits by type (R82), and no operand value is
reserved (R86, R87). -/
def Instr.wf : Instr → Bool
  | .encrypt => true
  | .decrypt => true
  | .deriveKey => true
  | .zeroize => true
  | .rd8 _ => true
  | .rd16 _ => true
  | .rd32 _ => true
  | .wr8 _ _ => true
  | .wr16 _ _ => true
  | .wr32 _ _ => true

end Sys2Proof
end

