-- ==== Sys2Proof/Decode.lean ====
section
/-!
DEFINITION. Decoding (spec/30_encoding.md R80-R85) and, after it, the encoder (R91). A word comes in one of the two
formats of R80. The decoder is total and rejects by name the two kinds of word that match no row of R83: an illegal CMD
word and a BUSREQ with SIZE = 11 (R84). Both have an effect of their own, which Machine/Agents.lean gives them.
-/

namespace Sys2Proof

/-- An instruction's bits in its format (R80). -/
inductive Packet where
  /-- A CMD word. -/
  | cmd (w : BitVec 32)
  /-- A packed bus request. -/
  | busreq (w : BitVec 53)
  deriving DecidableEq, Repr

/-- Why bits are no instruction of R83. -/
inductive Reject where
  /-- A CMD word other than 1 to 4: accepted, and completed as ILLEGAL_COMMAND (R84, R205). -/
  | illegalCommand (w : BitVec 32)
  /-- A BUSREQ with SIZE = 11: a malformed access, a write when `we` (R84, R54 condition 1). -/
  | reservedSize (we : Bool)
  /-- Bytes that are not the 4 of a CMD word or the 7 of a BUSREQ (log 16). -/
  | wrongLength (n : Nat)
  /-- A set bit above bit 52 in the 7 bytes of a BUSREQ (log 16). -/
  | strayBits
  deriving DecidableEq, Repr

/-! ## The fields of a BUSREQ (R82) -/

/-- WE, bit 52. -/
def fieldWe (w : BitVec 53) : Bool := w.getLsbD 52

/-- SIZE, bits 51:50. -/
def fieldSize (w : BitVec 53) : BitVec 2 := w.extractLsb' 50 2

/-- OFF, bits 49:32. -/
def fieldOff (w : BitVec 53) : Offset := w.extractLsb' 32 18

/-- WDATA, bits 31:0. -/
def fieldWdata (w : BitVec 53) : Word32 := w.extractLsb' 0 32

/-- The packed BUSREQ of four fields (R82). -/
def packBusreq (we : Bool) (size : BitVec 2) (off : Offset) (wdata : Word32) : BitVec 53 :=
  BitVec.ofBool we ++ size ++ off ++ wdata

/-! ## Decoding -/

/-- decode of R85; ILLEGAL is the rejection. -/
def decodeCmd (w : BitVec 32) : Except Reject Instr :=
  if w = 0x00000001#32 then .ok .encrypt
  else if w = 0x00000002#32 then .ok .decrypt
  else if w = 0x00000003#32 then .ok .deriveKey
  else if w = 0x00000004#32 then .ok .zeroize
  else .error (.illegalCommand w)

/-- The BUSREQ rows of R83: the row is fixed by WE and SIZE. -/
def decodeBusreq (w : BitVec 53) : Except Reject Instr :=
  if fieldSize w = 0b00#2 then
    if fieldWe w then .ok (.wr8 (fieldOff w) (fieldWdata w)) else .ok (.rd8 (fieldOff w))
  else if fieldSize w = 0b01#2 then
    if fieldWe w then .ok (.wr16 (fieldOff w) (fieldWdata w)) else .ok (.rd16 (fieldOff w))
  else if fieldSize w = 0b10#2 then
    if fieldWe w then .ok (.wr32 (fieldOff w) (fieldWdata w)) else .ok (.rd32 (fieldOff w))
  else .error (.reservedSize (fieldWe w))

/-- The decoder, on a word in its format. -/
def decode : Packet → Except Reject Instr
  | .cmd w => decodeCmd w
  | .busreq w => decodeBusreq w

/-- The number whose base-256 digits are the bytes, least significant first. -/
def natOfBytes : List Byte → Nat
  | [] => 0
  | b :: bs => b.toNat + 256 * natOfBytes bs

/-- The packet in a run of bytes, least significant byte first: 4 bytes of a CMD word, 7 bytes of a BUSREQ (log 16). -/
def packetOfBytes (f : Format) (bytes : List Byte) : Except Reject Packet :=
  match f with
  | .cmd => if bytes.length = 4 then .ok (.cmd (BitVec.ofNat 32 (natOfBytes bytes))) else .error (.wrongLength bytes.length)
  | .busreq =>
    if bytes.length = 7 then
      if natOfBytes bytes < 2 ^ 53 then .ok (.busreq (BitVec.ofNat 53 (natOfBytes bytes))) else .error .strayBits
    else .error (.wrongLength bytes.length)

/-- The decoder on any bytes. -/
def decodeBytes (f : Format) (bytes : List Byte) : Except Reject Instr :=
  match packetOfBytes f bytes with
  | .ok p => decode p
  | .error r => .error r

/-! ## The encoder (R83, R91) -/

/-- The bits of an instruction: a CMD row's word, or a BUSREQ with SIZE from the width and, for a read, WDATA = 0 (R91). -/
def encode : Instr → Packet
  | .encrypt => .cmd 0x00000001#32
  | .decrypt => .cmd 0x00000002#32
  | .deriveKey => .cmd 0x00000003#32
  | .zeroize => .cmd 0x00000004#32
  | .rd8 off => .busreq (packBusreq false 0b00#2 off 0#32)
  | .rd16 off => .busreq (packBusreq false 0b01#2 off 0#32)
  | .rd32 off => .busreq (packBusreq false 0b10#2 off 0#32)
  | .wr8 off wdata => .busreq (packBusreq true 0b00#2 off wdata)
  | .wr16 off wdata => .busreq (packBusreq true 0b01#2 off wdata)
  | .wr32 off wdata => .busreq (packBusreq true 0b10#2 off wdata)

/-- `k` bytes of a number, least significant first. -/
def bytesOfNat : Nat → Nat → List Byte
  | 0, _ => []
  | k + 1, n => BitVec.ofNat 8 n :: bytesOfNat k (n / 256)

/-- The bytes of an instruction, least significant first (log 16). -/
def encodeBytes (i : Instr) : List Byte :=
  match encode i with
  | .cmd w => bytesOfNat 4 w.toNat
  | .busreq w => bytesOfNat 7 w.toNat

/-- The instruction the decoder reads from bits numbered as spec/opcode_table.json numbers them: its CMD rows have 32 bits
and its BUSREQ rows 53 (56 in whole bytes). -/
def decodeTableWord (nbits w : Nat) : Option Instr :=
  let read := if nbits ≤ 32 then decodeBytes .cmd (bytesOfNat 4 w) else decodeBytes .busreq (bytesOfNat 7 w)
  match read with
  | .ok i => some i
  | .error _ => none

end Sys2Proof
end

