-- ==== Sys2Proof/Machine/Aes.lean ====
section
/-!
DEFINITION. The block cipher AES-256, spec/41_block_cipher.md R120-R135. The spec supplies it from general knowledge
(FIPS-197) and says so; the model follows the spec's text.
-/

namespace Sys2Proof.Machine

/-! ## Arithmetic in GF(2^8) (R122, R123) -/

/-- xtime(b) = b • 0x02 (R123). -/
def xtime (b : Byte) : Byte := if b.getLsbD 7 then (b <<< 1) ^^^ 0x1B#8 else b <<< 1

/-- xtime^i(b) (R123). -/
def xtimes : Nat → Byte → Byte
  | 0, b => b
  | i + 1, b => xtime (xtimes i b)

/-- b • c: the XOR over each set bit i of c of xtime^i(b) (R123). -/
def gmul (b c : Byte) : Byte :=
  (List.range 8).foldl (fun acc i => if c.getLsbD i then acc ^^^ xtimes i b else acc) 0#8

/-! ## The S-boxes (R124, R126) -/

/-- The table of R124: row = high nibble, column = low nibble. -/
def sboxTable : List (List Byte) := [
  [0x63, 0x7c, 0x77, 0x7b, 0xf2, 0x6b, 0x6f, 0xc5, 0x30, 0x01, 0x67, 0x2b, 0xfe, 0xd7, 0xab, 0x76],
  [0xca, 0x82, 0xc9, 0x7d, 0xfa, 0x59, 0x47, 0xf0, 0xad, 0xd4, 0xa2, 0xaf, 0x9c, 0xa4, 0x72, 0xc0],
  [0xb7, 0xfd, 0x93, 0x26, 0x36, 0x3f, 0xf7, 0xcc, 0x34, 0xa5, 0xe5, 0xf1, 0x71, 0xd8, 0x31, 0x15],
  [0x04, 0xc7, 0x23, 0xc3, 0x18, 0x96, 0x05, 0x9a, 0x07, 0x12, 0x80, 0xe2, 0xeb, 0x27, 0xb2, 0x75],
  [0x09, 0x83, 0x2c, 0x1a, 0x1b, 0x6e, 0x5a, 0xa0, 0x52, 0x3b, 0xd6, 0xb3, 0x29, 0xe3, 0x2f, 0x84],
  [0x53, 0xd1, 0x00, 0xed, 0x20, 0xfc, 0xb1, 0x5b, 0x6a, 0xcb, 0xbe, 0x39, 0x4a, 0x4c, 0x58, 0xcf],
  [0xd0, 0xef, 0xaa, 0xfb, 0x43, 0x4d, 0x33, 0x85, 0x45, 0xf9, 0x02, 0x7f, 0x50, 0x3c, 0x9f, 0xa8],
  [0x51, 0xa3, 0x40, 0x8f, 0x92, 0x9d, 0x38, 0xf5, 0xbc, 0xb6, 0xda, 0x21, 0x10, 0xff, 0xf3, 0xd2],
  [0xcd, 0x0c, 0x13, 0xec, 0x5f, 0x97, 0x44, 0x17, 0xc4, 0xa7, 0x7e, 0x3d, 0x64, 0x5d, 0x19, 0x73],
  [0x60, 0x81, 0x4f, 0xdc, 0x22, 0x2a, 0x90, 0x88, 0x46, 0xee, 0xb8, 0x14, 0xde, 0x5e, 0x0b, 0xdb],
  [0xe0, 0x32, 0x3a, 0x0a, 0x49, 0x06, 0x24, 0x5c, 0xc2, 0xd3, 0xac, 0x62, 0x91, 0x95, 0xe4, 0x79],
  [0xe7, 0xc8, 0x37, 0x6d, 0x8d, 0xd5, 0x4e, 0xa9, 0x6c, 0x56, 0xf4, 0xea, 0x65, 0x7a, 0xae, 0x08],
  [0xba, 0x78, 0x25, 0x2e, 0x1c, 0xa6, 0xb4, 0xc6, 0xe8, 0xdd, 0x74, 0x1f, 0x4b, 0xbd, 0x8b, 0x8a],
  [0x70, 0x3e, 0xb5, 0x66, 0x48, 0x03, 0xf6, 0x0e, 0x61, 0x35, 0x57, 0xb9, 0x86, 0xc1, 0x1d, 0x9e],
  [0xe1, 0xf8, 0x98, 0x11, 0x69, 0xd9, 0x8e, 0x94, 0x9b, 0x1e, 0x87, 0xe9, 0xce, 0x55, 0x28, 0xdf],
  [0x8c, 0xa1, 0x89, 0x0d, 0xbf, 0xe6, 0x42, 0x68, 0x41, 0x99, 0x2d, 0x0f, 0xb0, 0x54, 0xbb, 0x16]]

/-- The table of R126. -/
def invSboxTable : List (List Byte) := [
  [0x52, 0x09, 0x6a, 0xd5, 0x30, 0x36, 0xa5, 0x38, 0xbf, 0x40, 0xa3, 0x9e, 0x81, 0xf3, 0xd7, 0xfb],
  [0x7c, 0xe3, 0x39, 0x82, 0x9b, 0x2f, 0xff, 0x87, 0x34, 0x8e, 0x43, 0x44, 0xc4, 0xde, 0xe9, 0xcb],
  [0x54, 0x7b, 0x94, 0x32, 0xa6, 0xc2, 0x23, 0x3d, 0xee, 0x4c, 0x95, 0x0b, 0x42, 0xfa, 0xc3, 0x4e],
  [0x08, 0x2e, 0xa1, 0x66, 0x28, 0xd9, 0x24, 0xb2, 0x76, 0x5b, 0xa2, 0x49, 0x6d, 0x8b, 0xd1, 0x25],
  [0x72, 0xf8, 0xf6, 0x64, 0x86, 0x68, 0x98, 0x16, 0xd4, 0xa4, 0x5c, 0xcc, 0x5d, 0x65, 0xb6, 0x92],
  [0x6c, 0x70, 0x48, 0x50, 0xfd, 0xed, 0xb9, 0xda, 0x5e, 0x15, 0x46, 0x57, 0xa7, 0x8d, 0x9d, 0x84],
  [0x90, 0xd8, 0xab, 0x00, 0x8c, 0xbc, 0xd3, 0x0a, 0xf7, 0xe4, 0x58, 0x05, 0xb8, 0xb3, 0x45, 0x06],
  [0xd0, 0x2c, 0x1e, 0x8f, 0xca, 0x3f, 0x0f, 0x02, 0xc1, 0xaf, 0xbd, 0x03, 0x01, 0x13, 0x8a, 0x6b],
  [0x3a, 0x91, 0x11, 0x41, 0x4f, 0x67, 0xdc, 0xea, 0x97, 0xf2, 0xcf, 0xce, 0xf0, 0xb4, 0xe6, 0x73],
  [0x96, 0xac, 0x74, 0x22, 0xe7, 0xad, 0x35, 0x85, 0xe2, 0xf9, 0x37, 0xe8, 0x1c, 0x75, 0xdf, 0x6e],
  [0x47, 0xf1, 0x1a, 0x71, 0x1d, 0x29, 0xc5, 0x89, 0x6f, 0xb7, 0x62, 0x0e, 0xaa, 0x18, 0xbe, 0x1b],
  [0xfc, 0x56, 0x3e, 0x4b, 0xc6, 0xd2, 0x79, 0x20, 0x9a, 0xdb, 0xc0, 0xfe, 0x78, 0xcd, 0x5a, 0xf4],
  [0x1f, 0xdd, 0xa8, 0x33, 0x88, 0x07, 0xc7, 0x31, 0xb1, 0x12, 0x10, 0x59, 0x27, 0x80, 0xec, 0x5f],
  [0x60, 0x51, 0x7f, 0xa9, 0x19, 0xb5, 0x4a, 0x0d, 0x2d, 0xe5, 0x7a, 0x9f, 0x93, 0xc9, 0x9c, 0xef],
  [0xa0, 0xe0, 0x3b, 0x4d, 0xae, 0x2a, 0xf5, 0xb0, 0xc8, 0xeb, 0xbb, 0x3c, 0x83, 0x53, 0x99, 0x61],
  [0x17, 0x2b, 0x04, 0x7e, 0xba, 0x77, 0xd6, 0x26, 0xe1, 0x69, 0x14, 0x63, 0x55, 0x21, 0x0c, 0x7d]]

/-- A table's entry at a byte: row = high nibble, column = low nibble. -/
def tableAt (t : List (List Byte)) (a : Byte) : Byte := (t.getD (a.toNat / 16) []).getD (a.toNat % 16) 0

/-- Sbox (R124). -/
def sbox (a : Byte) : Byte := tableAt sboxTable a

/-- InvSbox (R126). -/
def invSbox (a : Byte) : Byte := tableAt invSboxTable a

end Sys2Proof.Machine

namespace Sys2Proof

/-! ## Words and blocks (R121, R136) -/

/-- Bytewise XOR of two words. -/
def AesWord.xor (a b : AesWord) : AesWord := ⟨a.b0 ^^^ b.b0, a.b1 ^^^ b.b1, a.b2 ^^^ b.b2, a.b3 ^^^ b.b3⟩

/-- A function of a byte, on each byte of a word. -/
def AesWord.map (f : Byte → Byte) (a : AesWord) : AesWord := ⟨f a.b0, f a.b1, f a.b2, f a.b3⟩

/-- The four bytes of a byte string from index `i` on. -/
def AesWord.ofBytes (l : List Byte) (i : Nat) : AesWord := ⟨l.getD i 0, l.getD (i + 1) 0, l.getD (i + 2) 0, l.getD (i + 3) 0⟩

/-- The bytes of a word, byte 0 first. -/
def AesWord.bytes (a : AesWord) : List Byte := [a.b0, a.b1, a.b2, a.b3]

/-- Bytewise XOR of two blocks, 16 lanes with no carry between them (R136). -/
def Block.xor (a b : Block) : Block := ⟨a.c0.xor b.c0, a.c1.xor b.c1, a.c2.xor b.c2, a.c3.xor b.c3⟩

/-- A function of a column, on each column of a state. -/
def Block.mapCols (f : AesWord → AesWord) (s : Block) : Block := ⟨f s.c0, f s.c1, f s.c2, f s.c3⟩

/-- load(B): s[r][c] = B[r + 4c] (R121). -/
def Block.load (l : List Byte) : Block := ⟨.ofBytes l 0, .ofBytes l 4, .ofBytes l 8, .ofBytes l 12⟩

/-- store(s): out[r + 4c] = s[r][c] (R121). -/
def Block.store (s : Block) : List Byte := s.c0.bytes ++ s.c1.bytes ++ s.c2.bytes ++ s.c3.bytes

end Sys2Proof

namespace Sys2Proof.Machine

/-! ## The round transformations (R125-R131) -/

/-- SubBytes (R125). -/
def subBytes (s : Block) : Block := s.mapCols (AesWord.map sbox)

/-- InvSubBytes (R126). -/
def invSubBytes (s : Block) : Block := s.mapCols (AesWord.map invSbox)

/-- ShiftRows: s'[r][c] = s[r][(c + r) mod 4] (R127). -/
def shiftRows (s : Block) : Block :=
  ⟨⟨s.c0.b0, s.c1.b1, s.c2.b2, s.c3.b3⟩, ⟨s.c1.b0, s.c2.b1, s.c3.b2, s.c0.b3⟩,
   ⟨s.c2.b0, s.c3.b1, s.c0.b2, s.c1.b3⟩, ⟨s.c3.b0, s.c0.b1, s.c1.b2, s.c2.b3⟩⟩

/-- InvShiftRows: s'[r][c] = s[r][(c - r) mod 4] (R128). -/
def invShiftRows (s : Block) : Block :=
  ⟨⟨s.c0.b0, s.c3.b1, s.c2.b2, s.c1.b3⟩, ⟨s.c1.b0, s.c0.b1, s.c3.b2, s.c2.b3⟩,
   ⟨s.c2.b0, s.c1.b1, s.c0.b2, s.c3.b3⟩, ⟨s.c3.b0, s.c2.b1, s.c1.b2, s.c0.b3⟩⟩

/-- MixColumns on one column (R129); the constant is `gmul`'s second argument (log 20). -/
def mixColumn (s : AesWord) : AesWord :=
  ⟨gmul s.b0 0x02 ^^^ gmul s.b1 0x03 ^^^ s.b2 ^^^ s.b3,
   s.b0 ^^^ gmul s.b1 0x02 ^^^ gmul s.b2 0x03 ^^^ s.b3,
   s.b0 ^^^ s.b1 ^^^ gmul s.b2 0x02 ^^^ gmul s.b3 0x03,
   gmul s.b0 0x03 ^^^ s.b1 ^^^ s.b2 ^^^ gmul s.b3 0x02⟩

/-- InvMixColumns on one column (R130; log 20). -/
def invMixColumn (s : AesWord) : AesWord :=
  ⟨gmul s.b0 0x0e ^^^ gmul s.b1 0x0b ^^^ gmul s.b2 0x0d ^^^ gmul s.b3 0x09,
   gmul s.b0 0x09 ^^^ gmul s.b1 0x0e ^^^ gmul s.b2 0x0b ^^^ gmul s.b3 0x0d,
   gmul s.b0 0x0d ^^^ gmul s.b1 0x09 ^^^ gmul s.b2 0x0e ^^^ gmul s.b3 0x0b,
   gmul s.b0 0x0b ^^^ gmul s.b1 0x0d ^^^ gmul s.b2 0x09 ^^^ gmul s.b3 0x0e⟩

/-- MixColumns (R129). -/
def mixColumns (s : Block) : Block := s.mapCols mixColumn

/-- InvMixColumns (R130). -/
def invMixColumns (s : Block) : Block := s.mapCols invMixColumn

/-- The four words of the key schedule that round `rnd` uses: column c is w[4*rnd + c] (R131). -/
def roundKey (w : List AesWord) (rnd : Nat) : Block :=
  ⟨w.getD (4 * rnd) .zero, w.getD (4 * rnd + 1) .zero, w.getD (4 * rnd + 2) .zero, w.getD (4 * rnd + 3) .zero⟩

/-- AddRoundKey(s, rnd) (R131). -/
def addRoundKey (w : List AesWord) (s : Block) (rnd : Nat) : Block := s.xor (roundKey w rnd)

/-! ## Key expansion (R132) -/

/-- RotWord (R132). -/
def rotWord (a : AesWord) : AesWord := ⟨a.b1, a.b2, a.b3, a.b0⟩

/-- SubWord (R132). -/
def subWord (a : AesWord) : AesWord := a.map sbox

/-- Rcon[j] = (x^(j-1), 0, 0, 0) (R132). -/
def rcon (j : Nat) : AesWord := ⟨xtimes (j - 1) 0x01#8, 0, 0, 0⟩

/-- The word t that w[i] is made with, from the words before it (R132). -/
def expandTemp (w : List AesWord) (i : Nat) : AesWord :=
  let t := w.getD (i - 1) .zero
  if i % 8 = 0 then (subWord (rotWord t)).xor (rcon (i / 8)) else if i % 8 = 4 then subWord t else t

/-- One pass of the loop of R132: w[i] = w[i-8] ⊕ t is appended to w[0..i). -/
def expandStep (w : List AesWord) (i : Nat) : List AesWord := w ++ [(w.getD (i - 8) .zero).xor (expandTemp w i)]

/-- KeyExpansion(K): the 60 words (R132). -/
def keyExpansion (K : List Byte) : List AesWord :=
  (List.range' 8 52).foldl expandStep ((List.range 8).map fun i => AesWord.ofBytes K (4 * i))

/-! ## The cipher and its inverse (R133, R134) -/

/-- The body of the loop of R133. -/
def encRound (w : List AesWord) (s : Block) (rnd : Nat) : Block := addRoundKey w (mixColumns (shiftRows (subBytes s))) rnd

/-- R133 from the expanded key on. -/
def aesEncWith (w : List AesWord) (b : Block) : Block :=
  addRoundKey w (shiftRows (subBytes ((List.range' 1 13).foldl (encRound w) (addRoundKey w b 0)))) 14

/-- The body of the loop of R134. -/
def decRound (w : List AesWord) (s : Block) (rnd : Nat) : Block := invMixColumns (addRoundKey w (invSubBytes (invShiftRows s)) rnd)

/-- R134 from the expanded key on: rnd runs from 13 down to 1. -/
def aesDecWith (w : List AesWord) (b : Block) : Block :=
  addRoundKey w (invSubBytes (invShiftRows ((List.range' 1 13).reverse.foldl (decRound w) (addRoundKey w b 14)))) 0

/-- AES_Enc(K, B) (R133). -/
def aesEnc (K : List Byte) (b : Block) : Block := aesEncWith (keyExpansion K) b

/-- AES_Dec(K, B) (R134). -/
def aesDec (K : List Byte) (b : Block) : Block := aesDecWith (keyExpansion K) b

end Sys2Proof.Machine
end

