-- ==== Sys2Proof/Machine/BlockMode.lean ====
section
/-!
DEFINITION. The pure functions of 00_scope.md R15 other than the cipher: KDF (40_key_derivation.md R101), Pad and
CBC_Enc (42_encrypt.md R160, R162), CBC_Dec and Unpad (43_decrypt.md R180, R181).
-/

namespace Sys2Proof.Machine

/-- KDF(PASS_BUF[0..32), PASS_LEN) (R101): a positional copy of the first min(PASS_LEN, 32) bytes, zero beyond. -/
def kdf (passBuf : List Byte) (passLen : Nat) : List Byte :=
  (List.range 32).map fun i => if i < min passLen 32 then passBuf.getD i 0 else 0

/-- The number of bytes Pad adds to a string of length `n`: 16 - (n mod 16) (R160). -/
def padCount (n : Nat) : Nat := 16 - n % 16

/-- Pad(p) (R160): k bytes, each of value k. -/
def pad (p : List Byte) : List Byte := p ++ List.replicate (padCount p.length) (BitVec.ofNat 8 (padCount p.length))

/-- Unpad(m) (R181); none is PADDING_VALIDATION_FAILURE. -/
def unpad (m : List Byte) : Option (List Byte) :=
  let k := m.getD (m.length - 1) 0
  if k.toNat < 1 ∨ 16 < k.toNat then none
  else if (m.drop (m.length - k.toNat)).all (fun b => b == k) then some (m.take (m.length - k.toNat)) else none

/-- The first `n` blocks of a byte string, M[16j..16j+16) for j < n. -/
def takeBlocks : Nat → List Byte → List Block
  | 0, _ => []
  | n + 1, bs => Block.load bs :: takeBlocks n (bs.drop 16)

/-- The blocks of a byte string whose length is a multiple of 16. -/
def blocksOf (bs : List Byte) : List Block := takeBlocks (bs.length / 16) bs

/-- The bytes of a run of blocks, in order. -/
def bytesOfBlocks (bs : List Block) : List Byte := bs.flatMap Block.store

/-- The loop of R162 over any block function: each block is XORed with the one before it in the output, then encrypted. -/
def cbcEncBlocks (enc : Block → Block) : Block → List Block → List Block
  | _, [] => []
  | prev, m :: ms => enc (m.xor prev) :: cbcEncBlocks enc (enc (m.xor prev)) ms

/-- The loop of R180 over any block function: each block is decrypted, then XORed with the input block before it. -/
def cbcDecBlocks (dec : Block → Block) : Block → List Block → List Block
  | _, [] => []
  | prev, c :: cs => (dec c).xor prev :: cbcDecBlocks dec c cs

/-- CBC_Enc from the expanded key on. -/
def cbcEncWith (w : List AesWord) (iv : Block) (m : List Byte) : List Byte :=
  bytesOfBlocks (cbcEncBlocks (aesEncWith w) iv (blocksOf m))

/-- CBC_Dec from the expanded key on. -/
def cbcDecWith (w : List AesWord) (iv : Block) (c : List Byte) : List Byte :=
  bytesOfBlocks (cbcDecBlocks (aesDecWith w) iv (blocksOf c))

/-- CBC_Enc(K, IV, M) (R162). -/
def cbcEnc (K : List Byte) (iv : Block) (m : List Byte) : List Byte := cbcEncWith (keyExpansion K) iv m

/-- CBC_Dec(K, IV, C) (R180). -/
def cbcDec (K : List Byte) (iv : Block) (c : List Byte) : List Byte := cbcDecWith (keyExpansion K) iv c

/-- IV0 = zeros(16) (R8). -/
def iv0 : Block := .zero

end Sys2Proof.Machine
end

