-- ==== Sys2Proof/Machine/State.lean ====
section
/-!
DEFINITION. The state of the machine, as plain data: N_UNITS units (spec/10_state.md R20), each with every register,
buffer and hidden register of R21-R44, and beside them what the other agents of the spec hold: the masters' programs
(30_encoding.md R90), the responses they received (20_memory.md R52) and the schedule that says which agent moves next.
-/

namespace Sys2Proof.Machine

/-- Bytes of a unit's window, keyed by window offset, in canonical form (`Memory.wf` in Machine/Ops.lean). A unit's three
buffers stand in one such list, each at its offsets of the map (20_memory.md R51; log 7). -/
abbrev Memory := List Host.Cell

/-- The fields of STATUS (R25). The reserved bits 3, 7 and 31:10 hold nothing (R32; log 14); the register's word is
`Status.word` in Machine/Flags.lean. -/
structure Status where
  busy : Bool
  done : Bool
  valid : Bool
  err : BitVec 3
  accErr : Bool
  busyViol : Bool
  deriving DecidableEq, Repr

/-- The state of one unit (R21-R42). ID, CAPS and CMD hold nothing (R22-R24). -/
structure UnitState where
  /-- STATUS (R25). -/
  status : Status
  /-- PASS_LEN (R33). -/
  passLen : Word32
  /-- IN_LEN (R34). -/
  inLen : Word32
  /-- OUT_LEN (R35). -/
  outLen : Word32
  /-- PENDING_CMD (R41). -/
  pendingCmd : Word32
  /-- PASS_BUF, IN_BUF and OUT_BUF (R37-R39). -/
  mem : Memory
  /-- KEY_REG, 32 bytes (R42). -/
  keyReg : List Byte
  /-- W[0..60) (R42). -/
  roundKeys : List AesWord
  /-- CHAIN_REG (R42). -/
  chainReg : Block
  /-- The cipher STATE (R42). -/
  cipherState : Block
  deriving DecidableEq, Repr

/-- What a bus master does next (30_encoding.md R90). `window` is the platform address of the unit's window (R9). -/
inductive HostOp where
  /-- Issue one BUSREQ (R82). -/
  | request (window : Nat) (req : BitVec 53)
  /-- `poll OFF, MASK, VALUE`: repeat RD32 of OFF until (RDATA AND MASK) = VALUE (R90). -/
  | poll (window : Nat) (off : Offset) (mask value : Word32)
  /-- `readout` (R92): RD32 of OUT_LEN, then the reads of as many bytes of OUT_BUF as that RDATA says. -/
  | readout (window : Nat)
  deriving DecidableEq, Repr

/-- The agent that moves in a step (R20, R62, R201, R250). -/
inductive Turn where
  /-- Bus master `m` issues its next transaction. -/
  | host (m : Nat)
  /-- The engine of unit `u` completes its command, if one is in flight. -/
  | engine (u : Nat)
  /-- The platform asserts RST of unit `u` (70_reset_and_hazards.md R250). -/
  | rst (u : Nat)
  /-- The platform's reset: RST of every unit (60_exceptions.md R232). -/
  | rstAll
  deriving DecidableEq, Repr

/-- One read response RDATA[31:0] (20_memory.md R52), with the bus master it went to (log 6). -/
structure Response where
  master : Nat
  data : Word32
  deriving DecidableEq, Repr

/-- The whole machine. -/
structure State where
  /-- The parameters of R9; no step changes them (log 1). -/
  params : Params
  /-- The units, N_UNITS of them (R20). -/
  units : List UnitState
  /-- MODEL'S OWN (log 5): the unit the step in progress acts on. -/
  active : Nat
  /-- MODEL'S OWN (log 5): the bus master whose transaction is in progress. -/
  master : Nat
  /-- Every RDATA received, oldest first (R264). -/
  rdata : List Response
  /-- MODEL'S OWN (log 2): how many draws have been made. -/
  draws : Nat
  /-- Each bus master's remaining program (R90, R216). -/
  hosts : List (List HostOp)
  /-- MODEL'S OWN (log 3): the agents that move in the next steps. -/
  turns : List Turn
  deriving DecidableEq, Repr

/-- Why the machine stops. -/
inductive Fault where
  /-- Raised by a master's turn when the platform window it addresses belongs to no unit. What the platform does there is
  outside the spec (R50, R231; log 8). Safe: the model stops where a platform may go on. -/
  | noUnitAtWindow
  deriving DecidableEq, Repr

/-- Why an instruction has no meaning. -/
inductive Refusal where
  /-- Raised by an arm of `exec` whose instruction is not modelled. Safe. No arm of this model raises it. -/
  | notModelled (mnemonic : String)
  deriving DecidableEq, Repr

/-- STATUS after reset, 0x00000000 (R25). -/
def Status.reset : Status :=
  { busy := false, done := false, valid := false, err := 0, accErr := false, busyViol := false }

/-- A unit after reset (R44, 70_reset_and_hazards.md R251): every register zero, every buffer byte 0x00. -/
def UnitState.reset : UnitState :=
  { status := .reset, passLen := 0, inLen := 0, outLen := 0, pendingCmd := 0, mem := [],
    keyReg := List.replicate 32 0, roundKeys := List.replicate 60 .zero, chainReg := .zero, cipherState := .zero }

/-- The machine after reset, for given parameters: every unit reset (R232), one bus master with an empty program, nothing
scheduled (log 3, log 4). -/
def State.resetWith (p : Params) : State :=
  { params := p, units := List.replicate p.nUnits .reset, active := 0, master := 0, rdata := [], draws := 0,
    hosts := [[]], turns := [] }

/-- The machine right after reset, at the parameters of log 1. -/
def State.reset : State := State.resetWith Config.resetParams

end Sys2Proof.Machine
end

