-- ==== Sys2Proof/Machine/Flags.lean ====
section
/-!
DEFINITION. Every flag computation: STATUS as a word (spec/10_state.md R25), and each of the ways its fields change:
acceptance (44_control.md R200), the two endings (R203, 60_exceptions.md R221), the sticky flags (R222, R223) and their
write-1-to-clear (20_memory.md R57).
-/

namespace Sys2Proof.Machine

/-- The error codes a completion can report (60_exceptions.md R220). -/
inductive CmdError where
  | cipherFailure
  | invalidCiphertextLength
  | paddingValidationFailure
  | lengthExceeded
  | illegalCommand
  deriving DecidableEq, Repr

/-- The value an error writes to STATUS.ERR (R220). -/
def CmdError.code : CmdError → BitVec 3
  | .cipherFailure => 1
  | .invalidCiphertextLength => 2
  | .paddingValidationFailure => 3
  | .lengthExceeded => 4
  | .illegalCommand => 5

/-- STATUS as software reads it (R25): bits 31:10, 7 and 3 read 0 (R32). -/
def Status.word (st : Status) : Word32 :=
  0#22 ++ BitVec.ofBool st.busyViol ++ BitVec.ofBool st.accErr ++ 0#1 ++ st.err ++ 0#1 ++
    BitVec.ofBool st.valid ++ BitVec.ofBool st.done ++ BitVec.ofBool st.busy

/-- What acceptance does to STATUS (R200). -/
def Status.accepted (st : Status) : Status := { st with busy := true, done := false, valid := false, err := 0 }

/-- What finish_ok does to STATUS (R203). -/
def Status.succeeded (st : Status) : Status := { st with busy := false, done := true, valid := true, err := 0 }

/-- What raise CmdError does to STATUS (R221). -/
def Status.failed (e : CmdError) (st : Status) : Status := { st with busy := false, done := true, valid := false, err := e.code }

/-- `flag ACC_ERR` (R222). -/
def Status.flagAccErr (st : Status) : Status := { st with accErr := true }

/-- `flag BUSY_VIOL` (R223). -/
def Status.flagBusyViol (st : Status) : Status := { st with busyViol := true }

/-- A 4-byte write of `v` to STATUS: write-1-to-clear of bits 8 and 9, every other bit ignored (R57, R32). -/
def Status.clearSticky (v : Word32) (st : Status) : Status :=
  { st with
    accErr := st.accErr && !v.getLsbD 8
    busyViol := st.busyViol && !v.getLsbD 9 }

end Sys2Proof.Machine
end

