-- ==== Sys2Proof/Machine/Operands.lean ====
section
/-!
DEFINITION. The one operand form of the machine, a window offset with an access width (spec/20_memory.md R50-R54): the
map of the window, which accesses are malformed, and what a register reads as (R57).
-/

namespace Sys2Proof.Machine

/-! ## Offsets (R21, R51) -/

/-- ID. -/
abbrev offId : Nat := 0x00
/-- CAPS. -/
abbrev offCaps : Nat := 0x04
/-- CMD. -/
abbrev offCmd : Nat := 0x08
/-- STATUS. -/
abbrev offStatus : Nat := 0x0C
/-- PASS_LEN. -/
abbrev offPassLen : Nat := 0x10
/-- IN_LEN. -/
abbrev offInLen : Nat := 0x14
/-- OUT_LEN. -/
abbrev offOutLen : Nat := 0x18
/-- PASS_BUF[0]. -/
abbrev passBase : Nat := 0x20
/-- IN_BUF[0]. -/
abbrev inBase : Nat := 0x10000
/-- OUT_BUF[0]. -/
abbrev outBase : Nat := 0x20000

/-- The value of ID (R22). -/
def idValue : Word32 := 0xAE5C0001

/-- The access widths (R52): SIZE = 00, 01, 10. -/
inductive Width where
  | b1
  | b2
  | b4
  deriving DecidableEq, Repr

/-- The width in bytes. -/
def Width.bytes : Width → Nat
  | .b1 => 1
  | .b2 => 2
  | .b4 => 4

/-- The regions of the window (R51). -/
inductive Region where
  | reg
  | pass
  | inp
  | out
  | unmapped
  deriving DecidableEq, Repr

/-- region(off), the first matching row of R51's table. -/
def region (p : Params) (off : Nat) : Region :=
  if 0x1C ≤ off ∧ off ≤ 0x1F then .unmapped
  else if off ≤ 0x1F then .reg
  else if off ≤ 0x3F then .pass
  else if off ≤ 0xFFFF then .unmapped
  else if off < inBase + p.maxIn then .inp
  else if off ≤ 0x1FFFF then .unmapped
  else if off < outBase + p.outCap then .out
  else .unmapped

/-- The read-only targets (R54 condition 5): ID, CAPS, OUT_LEN and the OUT region. -/
def readOnly (p : Params) (off : Nat) : Bool :=
  decide (off = offId) || decide (off = offCaps) || decide (off = offOutLen) || decide (region p off = .out)

/-- Conditions 2 to 5 of R54; condition 1, SIZE = 11, is the decoder's rejection. -/
def malformed (p : Params) (off : Nat) (w : Width) (we : Bool) : Bool :=
  decide (off % w.bytes ≠ 0) || decide (region p off = .unmapped) ||
    (decide (region p off = .reg) && decide (w ≠ .b4)) || (we && readOnly p off)

/-- What a well-formed 4-byte read of a register offset returns when it is no draw (R57). -/
def regValue (p : Params) (u : UnitState) (off : Nat) : Word32 :=
  if off = offId then idValue
  else if off = offCaps then BitVec.ofNat 32 p.maxIn
  else if off = offCmd then 0
  else if off = offStatus then u.status.word
  else if off = offPassLen then u.passLen
  else if off = offInLen then u.inLen
  else u.outLen

end Sys2Proof.Machine
end

