-- ==== Sys2Proof/Machine/Ops.lean ====
section
/-!
DEFINITION. The shared operations: memory in canonical form, the accessors of State, MemRead and MemWrite
(spec/20_memory.md R60), acceptance (44_control.md R200), the two endings of a command (R203, 60_exceptions.md R221) with
the scrub of R206, and reset (70_reset_and_hazards.md R251). The spec has no trap (R226): raising CmdError is the nearest
to taking an exception and is one operation here; there is nothing to return from (R227).
-/

namespace Sys2Proof.Machine

/-! ## Memory -/

/-- What an unlisted offset reads as: every buffer byte is 0x00 after reset (R37-R39). -/
abbrev Memory.unlisted : Byte := 0x00

/-- The canonical form: offsets strictly rising, no entry equal to what an unlisted offset reads as. -/
abbrev Memory.wf (m : Memory) : Prop := m.Pairwise (fun a b => a.1 < b.1) ∧ ∀ c ∈ m, c.2 ≠ Memory.unlisted

/-- The byte at an offset. -/
def Memory.read : Memory → Nat → Byte
  | [], _ => Memory.unlisted
  | c :: m, a => if a = c.1 then c.2 else Memory.read m a

/-- Store one byte; storing what an unlisted offset reads as removes the entry. -/
def Memory.write : Memory → Nat → Byte → Memory
  | [], a, v => if v = Memory.unlisted then [] else [(a, v)]
  | c :: m, a, v =>
    if a < c.1 then (if v = Memory.unlisted then c :: m else (a, v) :: c :: m)
    else if a = c.1 then (if v = Memory.unlisted then m else (a, v) :: m)
    else c :: Memory.write m a v

/-- Store a run of bytes from offset `a` on. -/
def Memory.store : Memory → Nat → List Byte → Memory
  | m, _, [] => m
  | m, a, b :: bs => Memory.store (Memory.write m a b) (a + 1) bs

/-- Make every byte of [lo, hi) 0x00. -/
def Memory.clear (m : Memory) (lo hi : Nat) : Memory := m.filter fun c => !(decide (lo ≤ c.1) && decide (c.1 < hi))

/-- The `n` bytes from offset `a` on. -/
def Memory.slice (m : Memory) (a n : Nat) : List Byte := (List.range n).map fun i => Memory.read m (a + i)

/-- A little-endian read of `n` bytes, zero-extended to 32 bits (R55). -/
def Memory.readWord (m : Memory) (a n : Nat) : Word32 := BitVec.ofNat 32 (natOfBytes (Memory.slice m a n))

/-- A little-endian store of the `n` low bytes of `v` (R56). -/
def Memory.writeWord (m : Memory) (a n : Nat) (v : Word32) : Memory := Memory.store m a (bytesOfNat n v.toNat)

/-! ## The operations of a unit -/

/-- PASS_BUF[0..32). -/
def UnitState.passBytes (u : UnitState) : List Byte := Memory.slice u.mem passBase 32

/-- IN_BUF[0..IN_LEN). -/
def UnitState.inBytes (u : UnitState) : List Byte := Memory.slice u.mem inBase u.inLen.toNat

/-- KDF of the unit's passphrase (R101). -/
def UnitState.key (u : UnitState) : List Byte := kdf u.passBytes u.passLen.toNat

/-- `flag ACC_ERR` (R222). -/
def UnitState.flagAccErr (u : UnitState) : UnitState := { u with status := u.status.flagAccErr }

/-- `flag BUSY_VIOL` (R223). -/
def UnitState.flagBusyViol (u : UnitState) : UnitState := { u with status := u.status.flagBusyViol }

/-- accept(v) (R200). -/
def UnitState.accept (v : Word32) (u : UnitState) : UnitState := { u with pendingCmd := v, status := u.status.accepted }

/-- MemWrite on the addressed unit (R60). -/
def UnitState.memWrite (p : Params) (off : Nat) (w : Width) (v : Word32) (u : UnitState) : UnitState :=
  if malformed p off w true then u.flagAccErr
  else if off = offStatus then { u with status := u.status.clearSticky v }
  else if u.status.busy then u.flagBusyViol
  else if off = offCmd then u.accept v
  else if off = offPassLen then { u with passLen := v }
  else if off = offInLen then { u with inLen := v }
  else { u with mem := Memory.writeWord u.mem off w.bytes v }

/-- Load KEY_REG with the derived key and W with its expansion, as a completion does before it uses the cipher (R42). -/
def UnitState.loadKey (u : UnitState) : UnitState := { u with keyReg := u.key, roundKeys := keyExpansion u.key }

/-- finish_ok(r) (R203): OUT_BUF is r and then zeros. -/
def UnitState.finishOk (p : Params) (r : List Byte) (u : UnitState) : UnitState :=
  { u with
    mem := Memory.store (Memory.clear u.mem outBase (outBase + p.outCap)) outBase r
    outLen := BitVec.ofNat 32 r.length
    status := u.status.succeeded }

/-- raise CmdError(code) (R221): no output at all. -/
def UnitState.raiseCmdError (p : Params) (e : CmdError) (u : UnitState) : UnitState :=
  { u with
    mem := Memory.clear u.mem outBase (outBase + p.outCap)
    outLen := 0
    status := u.status.failed e }

/-- R206, last in every completion: PENDING_CMD and the working registers are zero again. -/
def UnitState.scrub (u : UnitState) : UnitState :=
  { u with
    pendingCmd := 0
    keyReg := List.replicate 32 0
    roundKeys := List.replicate 60 .zero
    chainReg := .zero
    cipherState := .zero }

/-- ZEROIZE's clearing of the inputs (R204). -/
def UnitState.clearInputs (p : Params) (u : UnitState) : UnitState :=
  { u with
    mem := Memory.clear (Memory.clear u.mem passBase (passBase + 32)) inBase (inBase + p.maxIn)
    passLen := 0
    inLen := 0 }

/-! ## The operations of the machine -/

/-- The unit the step acts on. -/
def State.unit (s : State) : UnitState := s.units.getD s.active .reset

/-- Put a new state of that unit in its place; the other units are untouched (R20). -/
def State.setUnit (s : State) (u : UnitState) : State := { s with units := s.units.set s.active u }

/-- Apply an operation to that unit. -/
def State.onUnit (s : State) (f : UnitState → UnitState) : State := s.setUnit (f s.unit)

/-- Give RDATA to the bus master whose read this is (R52). -/
def State.respond (s : State) (v : Word32) : State := { s with rdata := s.rdata ++ [⟨s.master, v⟩] }

/-- Count one draw (log 2). -/
def State.countDraw (s : State) : State := { s with draws := s.draws + 1 }

/-- The draw a read of width `w` returns while busy: any w-byte value, zero-extended (R59). -/
def drawWord (w : Width) (n : Nat) : Word32 := BitVec.ofNat 32 ((Config.freeWord n).toNat % 2 ^ (8 * w.bytes))

/-- MemRead(off, w), its answer given to the master (R60). -/
def memRead (off : Nat) (w : Width) (s : State) : State :=
  if malformed s.params off w false then (s.onUnit .flagAccErr).respond 0
  else if region s.params off = .reg then
    if off = offOutLen ∧ s.unit.status.busy = true then (s.respond (drawWord .b4 s.draws)).countDraw
    else s.respond (regValue s.params s.unit off)
  else if region s.params off = .out ∧ s.unit.status.busy = true then (s.respond (drawWord w s.draws)).countDraw
  else s.respond (Memory.readWord s.unit.mem off w.bytes)

/-- MemWrite(off, w, v) (R60). -/
def memWrite (off : Nat) (w : Width) (v : Word32) (s : State) : State := s.onUnit (.memWrite s.params off w v)

/-- A BUSREQ with SIZE = 11 (R54 condition 1): ACC_ERR, and RDATA = 0 to a read. -/
def malformedSize (we : Bool) (s : State) : State :=
  if we then s.onUnit .flagAccErr else (s.onUnit .flagAccErr).respond 0

/-- A completion that ends in finish_ok (R201, R203, R206). -/
def State.succeed (s : State) (r : List Byte) : State := s.onUnit fun u => (u.finishOk s.params r).scrub

/-- A completion that ends in raise CmdError (R201, R221, R206). -/
def State.fail (s : State) (e : CmdError) : State := s.onUnit fun u => (u.raiseCmdError s.params e).scrub

/-- RST of unit `u` (R250, R251). -/
def State.resetUnit (s : State) (u : Nat) : State := { s with units := s.units.set u .reset }

/-- RST of every unit (R232). -/
def State.resetAll (s : State) : State := { s with units := s.units.map fun _ => .reset }

end Sys2Proof.Machine
end

