-- ==== Sys2Proof/Machine/Bus.lean ====
section
/-!
DEFINITION. The BUSREQ family (spec/45_host_access.md R210-R215): one MemRead or MemWrite of R60 each. A malformed or
dropped access is a next state, never a fault (60_exceptions.md R235).
-/

namespace Sys2Proof.Machine

/-- RD8 (R210): RDATA <- MemRead(OFF, 1). -/
def execRd8 (off : Offset) (s : State) : Host.Outcome State Fault Refusal := .next (memRead off.toNat .b1 s)

/-- RD16 (R211): RDATA <- MemRead(OFF, 2). -/
def execRd16 (off : Offset) (s : State) : Host.Outcome State Fault Refusal := .next (memRead off.toNat .b2 s)

/-- RD32 (R212): RDATA <- MemRead(OFF, 4). -/
def execRd32 (off : Offset) (s : State) : Host.Outcome State Fault Refusal := .next (memRead off.toNat .b4 s)

/-- WR8 (R213): MemWrite(OFF, 1, WDATA). -/
def execWr8 (off : Offset) (wdata : Word32) (s : State) : Host.Outcome State Fault Refusal :=
  .next (memWrite off.toNat .b1 wdata s)

/-- WR16 (R214): MemWrite(OFF, 2, WDATA). -/
def execWr16 (off : Offset) (wdata : Word32) (s : State) : Host.Outcome State Fault Refusal :=
  .next (memWrite off.toNat .b2 wdata s)

/-- WR32 (R215): MemWrite(OFF, 4, WDATA). -/
def execWr32 (off : Offset) (wdata : Word32) (s : State) : Host.Outcome State Fault Refusal :=
  .next (memWrite off.toNat .b4 wdata s)

end Sys2Proof.Machine
end

