-- ==== Sys2Proof/Machine/Commands.lean ====
section
/-!
DEFINITION. The CMD family: what each command does at its completion (spec/44_control.md R201, R202). The operands are the
unit's own state (30_encoding.md R86). No command can fault (60_exceptions.md R235).
-/

namespace Sys2Proof.Machine

/-- The part of R163 after its checks: C = CBC_Enc(KDF, IV0, Pad(IN_BUF[0..IN_LEN))), then finish_ok(C). -/
def encryptInput (s : State) : State :=
  let k := s.onUnit .loadKey
  k.succeed (cbcEncWith k.unit.roundKeys iv0 (pad k.unit.inBytes))

/-- The part of R182 after its length checks: CBC_Dec, Unpad, then finish_ok or PADDING_VALIDATION_FAILURE. -/
def decryptInput (s : State) : State :=
  let k := s.onUnit .loadKey
  match unpad (cbcDecWith k.unit.roundKeys iv0 k.unit.inBytes) with
  | some r => k.succeed r
  | none => k.fail .paddingValidationFailure

/-- ENCRYPT (R163). The CIPHER_FAILURE draw is made only when CIPHER_FAULT_POSSIBLE and the length check passed
(R220, R224; log 18). -/
def execEncrypt (s : State) : Host.Outcome State Fault Refusal :=
  .next
    (if s.params.maxIn < s.unit.inLen.toNat then s.fail .lengthExceeded
     else if s.params.cipherFaultPossible then
       if Config.freeFault s.draws then s.countDraw.fail .cipherFailure else encryptInput s.countDraw
     else encryptInput s)

/-- DECRYPT (R182): the length shape check, then the capacity check, then the padding (R224). -/
def execDecrypt (s : State) : Host.Outcome State Fault Refusal :=
  .next
    (if s.unit.inLen.toNat = 0 ∨ s.unit.inLen.toNat % 16 ≠ 0 then s.fail .invalidCiphertextLength
     else if s.params.maxIn < s.unit.inLen.toNat then s.fail .lengthExceeded
     else decryptInput s)

/-- DERIVE_KEY (R105). -/
def execDeriveKey (s : State) : Host.Outcome State Fault Refusal :=
  .next
    (let k := s.onUnit .loadKey
     k.succeed k.unit.keyReg)

/-- ZEROIZE (R204). -/
def execZeroize (s : State) : Host.Outcome State Fault Refusal :=
  .next ((s.onUnit (.clearInputs s.params)).succeed [])

end Sys2Proof.Machine
end

