-- ==== Sys2Proof/Machine/Dispatch.lean ====
section
/-!
DEFINITION. The meaning of each instruction, one arm per constructor (spec/30_encoding.md R83, 44_control.md R202). A CMD
instruction is the completion of that command on the active unit; a BUSREQ instruction is one host transaction with it.
-/

namespace Sys2Proof.Machine

def exec (i : Instr) (s : State) : Host.Outcome State Fault Refusal :=
  match i with
  | .encrypt => Sys2Proof.Machine.execEncrypt s
  | .decrypt => Sys2Proof.Machine.execDecrypt s
  | .deriveKey => Sys2Proof.Machine.execDeriveKey s
  | .zeroize => Sys2Proof.Machine.execZeroize s
  | .rd8 off => Sys2Proof.Machine.execRd8 off s
  | .rd16 off => Sys2Proof.Machine.execRd16 off s
  | .rd32 off => Sys2Proof.Machine.execRd32 off s
  | .wr8 off wdata => Sys2Proof.Machine.execWr8 off wdata s
  | .wr16 off wdata => Sys2Proof.Machine.execWr16 off wdata s
  | .wr32 off wdata => Sys2Proof.Machine.execWr32 off wdata s

end Sys2Proof.Machine
end

