-- ==== Sys2Proof/Machine/HostNotation.lean ====
section
/-!
DEFINITION. The host's notation (spec/30_encoding.md R90-R92) and the text encoding that is the host's duty
(40_key_derivation.md R100): each pseudo-instruction as the transactions it issues, in order, to the unit whose window
stands at a given platform address, and what `readout` returns.
-/

namespace Sys2Proof.Machine

/-- The BUSREQ of an instruction (R91); a CMD instruction is issued as `wr32 CMD` of its word (R92). -/
def requestOf (i : Instr) : BitVec 53 :=
  match encode i with
  | .busreq w => w
  | .cmd w => packBusreq true 0b10#2 (BitVec.ofNat 18 offCmd) w

/-- One transaction of the notation. -/
def transaction (window : Nat) (i : Instr) : HostOp := .request window (requestOf i)

/-- `cmd ENCRYPT` and the others (R92). -/
def cmdOps (window : Nat) (i : Instr) : List HostOp := [transaction window i]

/-- `wait` = `poll STATUS, 0x3, 0x2` (R92). -/
def waitOps (window : Nat) : List HostOp := [.poll window (BitVec.ofNat 18 offStatus) 0x3 0x2]

/-- The word-then-byte sequence that writes `bytes` from offset `base` on (R92): le32 words while four bytes are left, then
single bytes. -/
def storeOps (window : Nat) : Nat → List Byte → List HostOp
  | base, a :: b :: c :: d :: rest =>
    transaction window (.wr32 (BitVec.ofNat 18 base) (BitVec.ofNat 32 (natOfBytes [a, b, c, d]))) ::
      storeOps window (base + 4) rest
  | base, a :: rest => transaction window (.wr8 (BitVec.ofNat 18 base) (a.setWidth 32)) :: storeOps window (base + 1) rest
  | _, [] => []

/-- What the host writes to PASS_LEN for a passphrase of `n` bytes; for n ≥ 2^32 any value ≥ 32 (R33, R102), here the
greatest (log 19). -/
def passLenWord (n : Nat) : Word32 := if n < 2 ^ 32 then BitVec.ofNat 32 n else 0xFFFFFFFF

/-- `setpass` of a passphrase's UTF-8 bytes (R92, R102). -/
def setpassOps (window : Nat) (bytes : List Byte) : List HostOp :=
  storeOps window passBase (bytes.take 32) ++
    [transaction window (.wr32 (BitVec.ofNat 18 offPassLen) (passLenWord bytes.length))]

/-- `loadin` of at most MAX_IN bytes (R92). -/
def loadinOps (window : Nat) (bytes : List Byte) : List HostOp :=
  storeOps window inBase bytes ++
    [transaction window (.wr32 (BitVec.ofNat 18 offInLen) (BitVec.ofNat 32 bytes.length))]

/-- `readout` (R92). -/
def readoutOps (window : Nat) : List HostOp := [.readout window]

/-- The reads of `readout` once its `rd32 OUT_LEN` has returned `len` (R92): words while four bytes are left, then single
bytes. Only a draw can be so great that an offset leaves the window; OFF is then its 18 low bits (log 24). -/
def readoutDataOps (window : Nat) (len : Nat) : List HostOp :=
  (List.range (len / 4)).map (fun j => transaction window (.rd32 (BitVec.ofNat 18 (outBase + 4 * j)))) ++
    (List.range' (4 * (len / 4)) (len % 4)).map (fun i => transaction window (.rd8 (BitVec.ofNat 18 (outBase + i))))

/-- The r of `readout -> r` (R92), from the RDATA of its reads in order: the first is L, and r is the L bytes of the others,
four from each word and one from each byte read. -/
def readoutBytes : List Word32 → List Byte
  | [] => []
  | len :: data =>
    (data.take (len.toNat / 4)).flatMap (fun w => bytesOfNat 4 w.toNat) ++
      ((data.drop (len.toNat / 4)).take (len.toNat % 4)).map (fun w => w.setWidth 8)

/-- A UTF-8 continuation byte: 10xxxxxx with six bits of the code point from bit `k` on. -/
def utf8Tail (c k : Nat) : Byte := BitVec.ofNat 8 (0x80 + c / 2 ^ k % 64)

/-- The UTF-8 bytes of one code point, by the table of R100; a surrogate has none, nor has a number above U+10FFFF. -/
def utf8Char (c : Nat) : Option (List Byte) :=
  if c ≤ 0x7F then some [BitVec.ofNat 8 c]
  else if c ≤ 0x7FF then some [BitVec.ofNat 8 (0xC0 + c / 2 ^ 6), utf8Tail c 0]
  else if 0xD800 ≤ c ∧ c ≤ 0xDFFF then none
  else if c ≤ 0xFFFF then some [BitVec.ofNat 8 (0xE0 + c / 2 ^ 12), utf8Tail c 6, utf8Tail c 0]
  else if c ≤ 0x10FFFF then some [BitVec.ofNat 8 (0xF0 + c / 2 ^ 18), utf8Tail c 12, utf8Tail c 6, utf8Tail c 0]
  else none

/-- utf8(text) of a list of code points, not normalized; none when the host refuses the text (R100). -/
def utf8 : List Nat → Option (List Byte)
  | [] => some []
  | c :: cs =>
    match utf8Char c, utf8 cs with
    | some b, some bs => some (b ++ bs)
    | _, _ => none

/-- `setpass "text"` (R92): no transaction at all when the host refuses the text (R100, 93 item 16). -/
def setpassTextOps (window : Nat) (text : List Nat) : Option (List HostOp) := (utf8 text).map (setpassOps window)

end Sys2Proof.Machine
end

