-- ==== Sys2Proof/Machine/Agents.lean ====
section
/-!
DEFINITION. The agents' turns: a bus master issues its next transaction (spec/45_host_access.md R216, 30_encoding.md
R90), a unit's engine completes its command (44_control.md R201), the platform asserts RST (70_reset_and_hazards.md
R250); and which agent moves next (20_memory.md R62; log 3). Each turn is one atomic step.
-/

namespace Sys2Proof.Machine

/-- The index of the unit whose window stands at a platform address (00_scope.md R9; log 8). -/
def unitAt (p : Params) (window : Nat) : Option Nat := p.unitBase.findIdx? (fun b => b == window)

/-- One BUSREQ on the active unit: the instruction it decodes to, or a malformed access when SIZE = 11 (30_encoding.md R84). -/
def issue (req : BitVec 53) (s : State) : Host.Outcome State Fault Refusal :=
  match decode (.busreq req) with
  | .ok i => exec i s
  | .error _ => .next (malformedSize (fieldWe req) s)

/-- One completion on the active unit: the operation decode(PENDING_CMD) selects (R202), ILLEGAL being R205. -/
def complete (word : Word32) (s : State) : Host.Outcome State Fault Refusal :=
  match decode (.cmd word) with
  | .ok i => exec i s
  | .error _ => .next (s.fail .illegalCommand)

/-- The RDATA received last. -/
def State.lastRdata (s : State) : Word32 := (s.rdata.getLast?.map Response.data).getD 0

/-- The BUSREQ of `rd32 OFF` (R91). -/
def rd32Request (off : Offset) : BitVec 53 := packBusreq false 0b10#2 off 0#32

/-- The platform address a master's next transaction goes to. -/
def HostOp.window : HostOp → Nat
  | .request window _ => window
  | .poll window _ _ _ => window
  | .readout window => window

/-- The BUSREQ a master's operation issues in its turn: its own, the RD32 of a `poll` (R90; log 12), or the
`rd32 OUT_LEN` that begins a `readout` (R92). -/
def HostOp.issued : HostOp → BitVec 53
  | .request _ req => req
  | .poll _ off _ _ => rd32Request off
  | .readout _ => rd32Request (BitVec.ofNat 18 offOutLen)

/-- The masters' programs after an operation whose transaction left `t`; `again` are the programs before it. A `poll` goes on
when (RDATA AND MASK) = VALUE and else is issued again (R90); a `readout` goes on with the reads of the L bytes its
RDATA gives (R92, R216). -/
def HostOp.programsAfter (op : HostOp) (again : List (List HostOp)) (t : State) : List (List HostOp) :=
  match op with
  | .request _ _ => t.hosts
  | .poll _ _ mask value => if t.lastRdata &&& mask = value then t.hosts else again
  | .readout window => t.hosts.set t.master (readoutDataOps window t.lastRdata.toNat ++ t.hosts.getD t.master [])

/-- What a master's operation does once it reaches its unit: one transaction, and what the master does next. -/
def runHostOp (op : HostOp) (again : List (List HostOp)) (s : State) : Host.Outcome State Fault Refusal :=
  match issue op.issued s with
  | .next t => .next { t with hosts := op.programsAfter again t }
  | .fault r => .fault r
  | .refused r => .refused r

/-- Master `m` issues its next transaction; a master with nothing left does nothing (log 10). -/
def hostTurn (m : Nat) (s : State) : Host.Outcome State Fault Refusal :=
  match s.hosts.getD m [] with
  | [] => .next s
  | op :: rest =>
    match unitAt s.params op.window with
    | none => .fault .noUnitAtWindow
    | some u => runHostOp op s.hosts { s with master := m, active := u, hosts := s.hosts.set m rest }

/-- The engine of unit `u` completes; it is enabled exactly when BUSY = 1 (R201) and does nothing otherwise (log 10). -/
def engineTurn (u : Nat) (s : State) : Host.Outcome State Fault Refusal :=
  match s.units[u]? with
  | none => .next s
  | some v => if v.status.busy then complete v.pendingCmd { s with active := u } else .next s

/-- One turn of one agent. -/
def takeTurn (t : Turn) (s : State) : Host.Outcome State Fault Refusal :=
  match t with
  | .host m => hostTurn m s
  | .engine u => engineTurn u s
  | .rst u => .next (s.resetUnit u)
  | .rstAll => .next s.resetAll

/-- Who moves when the schedule names nobody: the first busy unit's engine, which a run still owes its completion (R264,
and weak fairness, R201), else the first master with a transaction left (log 3). -/
def dueTurn (s : State) : Option Turn :=
  match s.units.findIdx? (fun u => u.status.busy) with
  | some u => some (.engine u)
  | none => (s.hosts.findIdx? (fun h => !h.isEmpty)).map .host

/-- The machine's step: the scheduled turn, else the due one, else nothing happens. -/
def turn (s : State) : Host.Outcome State Fault Refusal :=
  match s.turns with
  | t :: ts => takeTurn t { s with turns := ts }
  | [] =>
    match dueTurn s with
    | some t => takeTurn t s
    | none => .next s

/-- Put an operation at the head of the first master's program. -/
def pushOp (op : HostOp) : List (List HostOp) → List (List HostOp)
  | [] => [[op]]
  | h :: hs => (op :: h) :: hs

/-- A CMD word accepted by the active unit, its completion being the next turn (log 4). -/
def State.withCommand (s : State) (word : Word32) : State :=
  { s.onUnit (.accept word) with turns := .engine s.active :: s.turns }

/-- A BUSREQ to the active unit at the head of the first master's program, its turn being the next (log 4). -/
def State.withRequest (s : State) (req : BitVec 53) : State :=
  { s with hosts := pushOp (.request (s.params.unitBase.getD s.active 0) req) s.hosts, turns := .host 0 :: s.turns }

end Sys2Proof.Machine
end

