-- ==== Sys2Proof/Machine/Step.lean ====
section
/-!
DEFINITION. One step of the machine, and the placing of an instruction where the next step runs it.
-/

namespace Sys2Proof.Machine

/-- One step: one atomic turn of one agent (spec/20_memory.md R62). -/
def step (s : State) : Host.Outcome State Fault Refusal := turn s

/-- `s` with the instruction whose bits are `w` placed where the next step runs it (log 4): a CMD word (32 bits) is
accepted by the active unit and its engine has the next turn; a BUSREQ (53 bits) heads the first master's program, which
has the next turn. -/
def State.withFetchWord (s : State) (nbits w : Nat) : State :=
  if nbits ≤ 32 then s.withCommand (BitVec.ofNat 32 w) else s.withRequest (BitVec.ofNat 53 w)

end Sys2Proof.Machine
end

