-- ==== Sys2Proof/Safety.lean ====
section
/-!
DEFINITION. The terms claims are made in: the launch premises and the end of a run (spec/70_reset_and_hazards.md R263,
R264), the invariant of the machine, and what the two endings of a command leave (44_control.md R203, R206,
60_exceptions.md R221).
-/

namespace Sys2Proof.Machine

/-! ## Launch premises, what a master has read, and observation (R263, R92, R264) -/

/-- `clean` (R263): the unit is in the reset state of R251. -/
abbrev UnitState.clean (u : UnitState) : Prop := u = .reset

/-- `idle` (R263). -/
abbrev UnitState.idle (u : UnitState) : Prop := u.status.busy = false

/-- `no_misuse` (R263). -/
abbrev UnitState.noMisuse (u : UnitState) : Prop := u.status.accErr = false ∧ u.status.busyViol = false

/-- A run of master `m`'s program on unit `u` has ended (R264): the last transaction is issued and the unit is idle. -/
abbrev State.runEnded (m u : Nat) (s : State) : Prop :=
  s.hosts.getD m [] = [] ∧ (s.units.getD u .reset).status.busy = false

/-- Every RDATA a master received, in order (R264). -/
def State.rdataOf (m : Nat) (s : State) : List Word32 := (s.rdata.filter fun r => r.master == m).map Response.data

/-- The r of a `readout` (R92) that master `m` began when it had received `n` responses. -/
def State.readoutFrom (m n : Nat) (s : State) : List Byte := readoutBytes ((s.rdataOf m).drop n)

/-- A run's observation (R264): the host-visible state of the unit (R21-R39) and the RDATA the master received. CMD is
not in it: it holds no value (R24). -/
structure Observation where
  id : Word32
  caps : Word32
  status : Word32
  passLen : Word32
  inLen : Word32
  outLen : Word32
  passBuf : List Byte
  inBuf : List Byte
  outBuf : List Byte
  rdata : List Word32
  deriving DecidableEq, Repr

/-- The observation of master `m`'s run on unit `u`. -/
def State.observe (m u : Nat) (s : State) : Observation :=
  let v := s.units.getD u .reset
  { id := regValue s.params v offId, caps := regValue s.params v offCaps, status := v.status.word, passLen := v.passLen, inLen := v.inLen, outLen := v.outLen,
    passBuf := v.passBytes, inBuf := Memory.slice v.mem inBase s.params.maxIn,
    outBuf := Memory.slice v.mem outBase s.params.outCap, rdata := s.rdataOf m }

/-! ## The invariant -/

/-- The step's unit exists. -/
abbrev State.live (s : State) : Prop := s.active < s.units.length

/-- An offset of a buffer region (R51). -/
abbrev inBuffer (p : Params) (off : Nat) : Prop := region p off = .pass ∨ region p off = .inp ∨ region p off = .out

/-- What R26-R29 say of STATUS in every state: BUSY and DONE exclude each other; without DONE there is neither VALID nor
an error; with DONE, VALID holds exactly when ERR is 0; ERR is never 6 or 7. -/
abbrev Status.inv (st : Status) : Prop :=
  (st.busy = true → st.done = false) ∧ (st.done = false → st.valid = false ∧ st.err = 0) ∧
    (st.done = true → (st.valid = true ↔ st.err = 0)) ∧ st.err.toNat ≤ 5

/-- PENDING_CMD and the working registers are zero (R42, R206). -/
abbrev UnitState.scrubbed (u : UnitState) : Prop :=
  u.keyReg = List.replicate 32 0 ∧ u.roundKeys = List.replicate 60 .zero ∧ u.chainReg = .zero ∧ u.cipherState = .zero

/-- The invariant of a unit: canonical memory holding buffer bytes only (R51), STATUS as above, OUT_LEN ≤ OUT_CAP (R35),
OUT_BUF zero from OUT_LEN on (R39), no output after a failure (R221), nothing pending while idle (R41) and the
working registers zero between steps (R42). -/
abbrev UnitState.inv (p : Params) (u : UnitState) : Prop :=
  Memory.wf u.mem ∧ (∀ c ∈ u.mem, inBuffer p c.1) ∧ u.status.inv ∧ u.outLen.toNat ≤ p.outCap ∧
    (∀ c ∈ u.mem, outBase ≤ c.1 → c.1 < outBase + u.outLen.toNat) ∧
    (u.status.done = true → u.status.valid = false → u.outLen = 0) ∧
    (u.status.busy = false → u.pendingCmd = 0) ∧ u.scrubbed

/-- The invariant of the machine: legal parameters (R9), N_UNITS units (R20), the active one among them, each in order. -/
abbrev State.inv (s : State) : Prop :=
  s.params.wf = true ∧ s.units.length = s.params.nUnits ∧ s.active < s.params.nUnits ∧ ∀ u ∈ s.units, u.inv s.params

/-! ## What an ending leaves -/

/-- OUT_BUF holds `r` and then zeros to its end, and OUT_LEN is the length of `r` (R203, R221 with `r` empty). -/
def outputIs (p : Params) (u : UnitState) (r : List Byte) : Prop :=
  u.outLen.toNat = r.length ∧ ∀ i, i < p.outCap → Memory.read u.mem (outBase + i) = r.getD i 0

/-- PASS_LEN, IN_LEN and every byte outside OUT_BUF are as before (R38, R221). -/
def inputsKept (p : Params) (u u' : UnitState) : Prop :=
  u'.passLen = u.passLen ∧ u'.inLen = u.inLen ∧
    ∀ off, off < outBase ∨ outBase + p.outCap ≤ off → Memory.read u'.mem off = Memory.read u.mem off

/-- PENDING_CMD and the working registers are zero (R206). -/
def scrubDone (u : UnitState) : Prop := u.pendingCmd = 0 ∧ u.scrubbed

/-- A unit after a completion that ended in finish_ok(r), its inputs untouched (R203, R206). -/
def endedOk (p : Params) (u u' : UnitState) (r : List Byte) : Prop :=
  outputIs p u' r ∧ inputsKept p u u' ∧ scrubDone u' ∧
    u'.status = { busy := false, done := true, valid := true, err := 0, accErr := u.status.accErr, busyViol := u.status.busyViol }

/-- A unit after a completion that ended in raise CmdError with this code (R221, R206). -/
def endedErr (p : Params) (u u' : UnitState) (code : BitVec 3) : Prop :=
  outputIs p u' [] ∧ inputsKept p u u' ∧ scrubDone u' ∧
    u'.status = { busy := false, done := true, valid := false, err := code, accErr := u.status.accErr, busyViol := u.status.busyViol }

end Sys2Proof.Machine
end

