-- ==== Sys2Proof/Certificates/Slice0/Obligations.lean ====
section
/-!
DEFINITION. The statements about the model. Each says which rule of spec/ it formalises; OBLIGATIONS.json lists them. A
statement about a draw holds whatever `Config.freeWord` and `Config.freeFault` are and whatever `draws` holds. Every
statement holds for every legal MAX_IN, CIPHER_FAULT_POSSIBLE, N_UNITS and UNIT_BASE (00_scope.md R9) unless it names one.
-/

open Sys2Proof Sys2Proof.Machine

/-! ## Encoding (30_encoding.md) -/

/-- Decoding the bytes of any instruction gives it back, every operand at every value (R83, R85, R91). -/
def Obligations.EveryInstructionRoundTripsThroughBytes : Prop :=
  ∀ i : Instr, decodeBytes i.format (encodeBytes i) = .ok i

/-- The other direction: what a word decodes to encodes to that word, but for the ignored WDATA of a read (R82, R91). -/
def Obligations.DecodedWordsReencode : Prop :=
  (∀ (w : BitVec 32) (i : Instr), decode (.cmd w) = .ok i → encode i = .cmd w) ∧
  (∀ (w : BitVec 53) (i : Instr), decode (.busreq w) = .ok i → w.getLsbD 52 = true → encode i = .busreq w) ∧
  (∀ (w : BitVec 53) (i : Instr), decode (.busreq w) = .ok i → w.getLsbD 52 = false →
    encode i = .busreq (w &&& 0x1FFFFF00000000#53))

/-- The match and mask of every row of R83 decide the decoding, and the operands are the fields of R82. -/
def Obligations.MatchAndMaskDecideTheRow : Prop :=
  (∀ w : BitVec 32, w &&& 0xFFFFFFFF#32 = 0x00000001#32 ↔ decode (.cmd w) = .ok .encrypt) ∧
  (∀ w : BitVec 32, w &&& 0xFFFFFFFF#32 = 0x00000002#32 ↔ decode (.cmd w) = .ok .decrypt) ∧
  (∀ w : BitVec 32, w &&& 0xFFFFFFFF#32 = 0x00000003#32 ↔ decode (.cmd w) = .ok .deriveKey) ∧
  (∀ w : BitVec 32, w &&& 0xFFFFFFFF#32 = 0x00000004#32 ↔ decode (.cmd w) = .ok .zeroize) ∧
  (∀ w : BitVec 53, w &&& 0x1C000000000000#53 = 0x00000000000000#53 ↔ decode (.busreq w) = .ok (.rd8 (w.extractLsb' 32 18))) ∧
  (∀ w : BitVec 53, w &&& 0x1C000000000000#53 = 0x04000000000000#53 ↔ decode (.busreq w) = .ok (.rd16 (w.extractLsb' 32 18))) ∧
  (∀ w : BitVec 53, w &&& 0x1C000000000000#53 = 0x08000000000000#53 ↔ decode (.busreq w) = .ok (.rd32 (w.extractLsb' 32 18))) ∧
  (∀ w : BitVec 53, w &&& 0x1C000000000000#53 = 0x10000000000000#53 ↔
    decode (.busreq w) = .ok (.wr8 (w.extractLsb' 32 18) (w.extractLsb' 0 32))) ∧
  (∀ w : BitVec 53, w &&& 0x1C000000000000#53 = 0x14000000000000#53 ↔
    decode (.busreq w) = .ok (.wr16 (w.extractLsb' 32 18) (w.extractLsb' 0 32))) ∧
  (∀ w : BitVec 53, w &&& 0x1C000000000000#53 = 0x18000000000000#53 ↔
    decode (.busreq w) = .ok (.wr32 (w.extractLsb' 32 18) (w.extractLsb' 0 32)))

/-- Exactly the illegal words are rejected (R84, R85): a CMD word whose OP is 0x0 or 0x5-0xF or whose RSVD is non-zero, and
a BUSREQ whose SIZE is 11. -/
def Obligations.ExactlyReservedWordsAreRejected : Prop :=
  (∀ w : BitVec 32, decode (.cmd w) = .error (.illegalCommand w) ↔
    (w.toNat % 16 = 0 ∨ 5 ≤ w.toNat % 16 ∨ w.toNat / 16 ≠ 0)) ∧
  (∀ w : BitVec 32, (∃ i, decode (.cmd w) = .ok i) ↔ (1 ≤ w.toNat ∧ w.toNat ≤ 4)) ∧
  (∀ w : BitVec 53, decode (.busreq w) = .error (.reservedSize (w.getLsbD 52)) ↔
    (w.getLsbD 51 = true ∧ w.getLsbD 50 = true)) ∧
  (∀ w : BitVec 53, (∃ i, decode (.busreq w) = .ok i) ↔ ¬ (w.getLsbD 51 = true ∧ w.getLsbD 50 = true))

/-- Words the spec packs itself, with the transaction it says each is (45_host_access.md worked examples, R91). -/
def Obligations.WorkedExampleWordsDecode : Prop :=
  decode (.cmd 0x00000003#32) = .ok .deriveKey ∧
  decode (.busreq 0x02000100000000#53) = .ok (.rd8 0x20001#18) ∧
  decode (.busreq 0x05000200000000#53) = .ok (.rd16 0x10002#18) ∧
  decode (.busreq 0x08000C00000000#53) = .ok (.rd32 0x0000C#18) ∧
  decode (.busreq 0x10002500000074#53) = .ok (.wr8 0x00025#18 0x74#32) ∧
  decode (.busreq 0x15000000006568#53) = .ok (.wr16 0x10000#18 0x6568#32) ∧
  decode (.busreq 0x18000800000001#53) = .ok (.wr32 0x00008#18 0x1#32)

/-! ## The step (10_state.md R20, 20_memory.md R62, 44_control.md R201) -/

/-- A master's turn with a BUSREQ that decodes runs exactly that instruction on the unit it addresses, after taking it
off the master's program (R216). The second clause is the model's choice, not the spec's (log 3, the default order): when
nothing is scheduled and no unit is busy, the first master with an operation left moves. -/
def Obligations.HostStepRunsTheDecodedInstruction : Prop :=
  ∀ (s : State) (m window : Nat) (req : BitVec 53) (rest : List HostOp) (u : Nat) (i : Instr),
    s.hosts.getD m [] = .request window req :: rest → unitAt s.params window = some u → decode (.busreq req) = .ok i →
    (∀ ts, s.turns = .host m :: ts →
      step s = exec i { s with turns := ts, master := m, active := u, hosts := s.hosts.set m rest }) ∧
    (s.turns = [] → s.units.findIdx? (fun v => v.status.busy) = none → s.hosts.findIdx? (fun h => !h.isEmpty) = some m →
      step s = exec i { s with master := m, active := u, hosts := s.hosts.set m rest })

/-- The engine's turn on a busy unit runs exactly the operation decode(PENDING_CMD) selects (R201, R202). The other two
clauses are the model's choices, not the spec's: when nothing is scheduled the first busy unit's engine moves (log 3, the
default order), and a scheduled turn of an idle unit's engine changes nothing but the schedule (log 10). -/
def Obligations.EngineStepRunsThePendingCommand : Prop :=
  ∀ (s : State) (u : Nat) (v : UnitState), s.units[u]? = some v →
    (∀ ts i, s.turns = .engine u :: ts → v.status.busy = true → decode (.cmd v.pendingCmd) = .ok i →
      step s = exec i { s with turns := ts, active := u }) ∧
    (∀ i, s.turns = [] → s.units.findIdx? (fun v => v.status.busy) = some u → decode (.cmd v.pendingCmd) = .ok i →
      step s = exec i { s with active := u }) ∧
    (∀ ts, s.turns = .engine u :: ts → v.status.busy = false → step s = .next { s with turns := ts })

/-- Placing a table word runs it next: from every state in order that has a bus master, the step after `withFetchWord` is
the instruction `decodeTableWord` reads, on the active unit (log 4: how a program comes to run is the model's choice). -/
def Obligations.PlacedWordIsTheNextStep : Prop :=
  ∀ (s : State) (w : Nat) (i : Instr), s.inv → s.hosts ≠ [] →
    (decodeTableWord 32 w = some i →
      step (s.withFetchWord 32 w) = exec i (s.onUnit (.accept (BitVec.ofNat 32 w)))) ∧
    (decodeTableWord 56 w = some i → step (s.withFetchWord 56 w) = exec i { s with master := 0 })

/-- One turn of `poll OFF, MASK, VALUE` (R90): it is one RD32 of OFF, after which the master goes on exactly when
(RDATA AND MASK) = VALUE and otherwise polls again. That each RD32 is a turn of its own is log 12. -/
def Obligations.PollRepeatsUntilTheMaskedValueMatches : Prop :=
  ∀ (s : State) (m window : Nat) (off : Offset) (mask value : Word32) (rest : List HostOp) (u : Nat) (ts : List Turn),
    s.turns = .host m :: ts → s.hosts[m]? = some (.poll window off mask value :: rest) → unitAt s.params window = some u →
    ∃ t v, exec (.rd32 off) { s with turns := ts, master := m, active := u, hosts := s.hosts.set m rest } = .next t ∧
      t.rdata = s.rdata ++ [⟨m, v⟩] ∧
      (v &&& mask = value → step s = .next t ∧ t.hosts[m]? = some rest) ∧
      (v &&& mask ≠ value → step s = .next { t with hosts := s.hosts })

/-- `wait` after an accepted command ends (R256): from a busy unit, with nothing scheduled and no other unit busy, the engine
completes and the first poll after it reads BUSY = 0 and DONE = 1. That these are the next two steps is the model's
default order (log 3). -/
def Obligations.WaitEndsAfterAnAcceptedCommand : Prop :=
  ∀ (s : State) (u window : Nat) (v : UnitState) (rest : List HostOp), s.turns = [] →
    s.units[u]? = some v → v.status.busy = true → (∀ x w, s.units[x]? = some w → x ≠ u → w.status.busy = false) →
    unitAt s.params window = some u → s.hosts = [waitOps window ++ rest] →
    ∃ t1 t2, step s = .next t1 ∧ step t1 = .next t2 ∧ t2.hosts = [rest] ∧
      t2.rdata.length = s.rdata.length + 1 ∧ t2.lastRdata &&& 0x3#32 = 0x2#32

/-- `wait` with no command accepted since reset never ends (R256): the poll stays where it is and no unit changes. That with
nothing scheduled the polling master moves is the model's default order (log 3). -/
def Obligations.WaitHangsWithoutAnAcceptedCommand : Prop :=
  ∀ (s : State) (u window : Nat) (v : UnitState) (rest : List HostOp), s.turns = [] →
    (∀ w ∈ s.units, w.status.busy = false) → s.units[u]? = some v → v.status.done = false →
    unitAt s.params window = some u → s.hosts = [waitOps window ++ rest] →
    ∃ t, step s = .next t ∧ t.hosts = s.hosts ∧ t.units = s.units ∧ t.turns = [] ∧ t.params = s.params

/-! ## Reset (70_reset_and_hazards.md) -/

/-- What reset leaves in every unit, for every legal parameters (R251, R44), and what ID and CAPS then read (R22, R23). -/
def Obligations.ResetLeavesTheSpecifiedState : Prop :=
  ∀ (p : Params) (u : Nat), u < p.nUnits → ∃ v, (State.resetWith p).units[u]? = some v ∧
    v.status.word = 0x00000000#32 ∧ v.passLen = 0 ∧ v.inLen = 0 ∧ v.outLen = 0 ∧ v.pendingCmd = 0 ∧
    (∀ off, Memory.read v.mem off = 0x00#8) ∧
    v.keyReg = List.replicate 32 0 ∧ v.roundKeys = List.replicate 60 ⟨0, 0, 0, 0⟩ ∧
    v.chainReg.store = List.replicate 16 0 ∧ v.cipherState.store = List.replicate 16 0 ∧
    regValue p v 0x00 = 0xAE5C0001#32 ∧ regValue p v 0x04 = BitVec.ofNat 32 p.maxIn

/-- RST discards whatever the unit held, a command in flight included, and no other unit changes (R250, R252); the
platform's reset does so to every unit (60_exceptions.md R232). That both leave the masters' programs, the responses and
the parameters alone is the model's reading (log 11, DEDUCED), which those rules do not state. -/
def Obligations.ResetInputDiscardsTheCommandInFlight : Prop :=
  ∀ (s : State) (ts : List Turn),
    (∀ u, s.turns = .rst u :: ts → ∃ t, step s = .next t ∧
      (u < s.units.length → t.units[u]? = some UnitState.reset) ∧ (∀ v, v ≠ u → t.units[v]? = s.units[v]?) ∧
      t.hosts = s.hosts ∧ t.rdata = s.rdata ∧ t.params = s.params) ∧
    (s.turns = .rstAll :: ts → ∃ t, step s = .next t ∧
      (∀ u, u < s.units.length → t.units[u]? = some UnitState.reset) ∧ t.units.length = s.units.length ∧
      t.hosts = s.hosts ∧ t.rdata = s.rdata ∧ t.params = s.params)

/-- The invariant holds after reset, for every legal parameters and for the model's own (log 1). -/
def Obligations.ResetIsInOrder : Prop :=
  (∀ p : Params, p.wf = true → (State.resetWith p).inv) ∧ State.reset.inv

/-! ## Whole-machine rules -/

/-- Every step keeps the invariant: canonical memory, BUSY and DONE never together, VALID only without an error, ERR never
6 or 7, OUT_LEN ≤ OUT_CAP, OUT_BUF zero from OUT_LEN on, PENDING_CMD zero while idle, the working registers zero (R26-R29,
R35, R39, R41, R42). -/
def Obligations.EveryStepKeepsTheInvariant : Prop :=
  ∀ s t : State, s.inv → step s = .next t → t.inv

/-- No unit step is a fault (60_exceptions.md R235): a step faults only when a master addresses a window of no unit, and
is never refused. -/
def Obligations.EveryStepAnswersANextState : Prop :=
  (∀ (i : Instr) (s : State), ∃ t, exec i s = .next t) ∧
  (∀ s : State, (∀ h ∈ s.hosts, ∀ op ∈ h, (unitAt s.params op.window).isSome = true) → ∃ t, step s = .next t) ∧
  (∀ (s : State) (r : Refusal), step s ≠ .refused r)

/-- No step changes a parameter or the number of units (R9, R20). -/
def Obligations.StepsKeepTheParameters : Prop :=
  ∀ s t : State, step s = .next t → t.params = s.params ∧ t.units.length = s.units.length

/-- Units share no state (R20): an instruction changes no unit but the active one, an engine's turn no unit but its own. -/
def Obligations.OtherUnitsAreUntouched : Prop :=
  (∀ (i : Instr) (s t : State), exec i s = .next t → ∀ v, v ≠ s.active → t.units[v]? = s.units[v]?) ∧
  (∀ (u : Nat) (s t : State), engineTurn u s = .next t → ∀ v, v ≠ u → t.units[v]? = s.units[v]?)

/-- Completions on different units commute (R62) when no draw is made: the units end the same in both orders. -/
def Obligations.CompletionsOfDifferentUnitsCommute : Prop :=
  ∀ (s a b ab ba : State) (u v : Nat), s.params.cipherFaultPossible = false → u ≠ v →
    engineTurn u s = .next a → engineTurn v a = .next ab → engineTurn v s = .next b → engineTurn u b = .next ba →
    ab.units = ba.units

/-- While a command is in flight no host transaction changes its inputs, its word, its result or STATUS.BUSY, DONE, VALID
and ERR (R58, R66, R26-R29). -/
def Obligations.HostsCannotTouchACommandInFlight : Prop :=
  ∀ (m : Nat) (s t : State) (x : Nat) (u : UnitState), hostTurn m s = .next t → s.units[x]? = some u →
    u.status.busy = true → ∃ u', t.units[x]? = some u' ∧
      u'.pendingCmd = u.pendingCmd ∧ u'.passLen = u.passLen ∧ u'.inLen = u.inLen ∧ u'.outLen = u.outLen ∧ u'.mem = u.mem ∧
      u'.status.busy = true ∧ u'.status.done = u.status.done ∧ u'.status.valid = u.status.valid ∧ u'.status.err = u.status.err

/-- Every completion ends its command (R201, R206): BUSY = 0, DONE = 1, PENDING_CMD and the working registers zero, and the
sticky flags as before (R30, R31). -/
def Obligations.EveryCompletionEndsItsCommand : Prop :=
  ∀ (u : Nat) (s : State) (v : UnitState), s.units[u]? = some v → v.status.busy = true →
    ∃ t v', engineTurn u s = .next t ∧ t.units[u]? = some v' ∧ v'.status.busy = false ∧ v'.status.done = true ∧
      v'.status.accErr = v.status.accErr ∧ v'.status.busyViol = v.status.busyViol ∧ scrubDone v'

/-- The engine writes PASS_LEN, IN_LEN, PASS_BUF and IN_BUF only in ZEROIZE (R33, R34, R37, R38). -/
def Obligations.OnlyZeroizeWritesTheInputs : Prop :=
  ∀ (u : Nat) (s t : State) (v : UnitState), s.params.wf = true → s.units[u]? = some v → v.pendingCmd ≠ 0x00000004#32 →
    engineTurn u s = .next t → ∃ v', t.units[u]? = some v' ∧ inputsKept s.params v v'

/-! ## The window (20_memory.md) -/

/-- The map of the window, for every legal MAX_IN (R51). -/
def Obligations.WindowMapIsAsTabulated : Prop :=
  ∀ (p : Params) (off : Nat), p.wf = true →
    (region p off = .reg ↔ off < 0x1C) ∧
    (region p off = .pass ↔ 0x20 ≤ off ∧ off ≤ 0x3F) ∧
    (region p off = .inp ↔ 0x10000 ≤ off ∧ off < 0x10000 + p.maxIn) ∧
    (region p off = .out ↔ 0x20000 ≤ off ∧ off < 0x20000 + (p.maxIn + 16)) ∧
    (region p off = .unmapped ↔
      (0x1C ≤ off ∧ off ≤ 0x1F) ∨ (0x40 ≤ off ∧ off ≤ 0xFFFF) ∨ (0x10000 + p.maxIn ≤ off ∧ off ≤ 0x1FFFF) ∨
      0x20000 + (p.maxIn + 16) ≤ off)

/-- An aligned access never crosses a region boundary (R53). -/
def Obligations.AlignedAccessesStayInOneRegion : Prop :=
  ∀ (p : Params) (off : Nat) (w : Width) (i : Nat), p.wf = true → off % w.bytes = 0 → i < w.bytes →
    region p (off + i) = region p off

/-- A malformed access (R54, R222): a read returns 0, a write is dropped, both set ACC_ERR and nothing else, busy or not.
The five conditions are written out for each width; SIZE = 11 is the fourth clause of each kind. -/
def Obligations.MalformedAccessesOnlySetAccErr : Prop :=
  ∀ (s : State) (off : Offset) (v : Word32) (req : BitVec 53) (t : State),
    t = s.setUnit { s.unit with status := { s.unit.status with accErr := true } } →
    ((region s.params off.toNat = .unmapped ∨ region s.params off.toNat = .reg →
      exec (.rd8 off) s = .next { t with rdata := s.rdata ++ [⟨s.master, 0x00000000#32⟩] }) ∧
     (off.toNat % 2 ≠ 0 ∨ region s.params off.toNat = .unmapped ∨ region s.params off.toNat = .reg →
      exec (.rd16 off) s = .next { t with rdata := s.rdata ++ [⟨s.master, 0x00000000#32⟩] }) ∧
     (off.toNat % 4 ≠ 0 ∨ region s.params off.toNat = .unmapped →
      exec (.rd32 off) s = .next { t with rdata := s.rdata ++ [⟨s.master, 0x00000000#32⟩] }) ∧
     (req.getLsbD 51 = true → req.getLsbD 50 = true → req.getLsbD 52 = false →
      issue req s = .next { t with rdata := s.rdata ++ [⟨s.master, 0x00000000#32⟩] })) ∧
    ((region s.params off.toNat = .unmapped ∨ region s.params off.toNat = .reg ∨ region s.params off.toNat = .out →
      exec (.wr8 off v) s = .next t) ∧
     (off.toNat % 2 ≠ 0 ∨ region s.params off.toNat = .unmapped ∨ region s.params off.toNat = .reg ∨
        region s.params off.toNat = .out → exec (.wr16 off v) s = .next t) ∧
     (off.toNat % 4 ≠ 0 ∨ region s.params off.toNat = .unmapped ∨ off.toNat = 0x00 ∨ off.toNat = 0x04 ∨
        off.toNat = 0x18 ∨ region s.params off.toNat = .out → exec (.wr32 off v) s = .next t) ∧
     (req.getLsbD 51 = true → req.getLsbD 50 = true → req.getLsbD 52 = true → issue req s = .next t))

/-- A well-formed read of a buffer region returns its bytes little-endian, zero-extended (R55), of PASS and IN always and
of OUT while idle, and changes nothing but the master's responses. -/
def Obligations.BufferReadsAreLittleEndian : Prop :=
  ∀ (s : State) (off : Offset),
    region s.params off.toNat = .pass ∨ region s.params off.toNat = .inp ∨
      (region s.params off.toNat = .out ∧ s.unit.status.busy = false) →
    exec (.rd8 off) s = .next { s with rdata := s.rdata ++ [⟨s.master,
      BitVec.ofNat 32 (Memory.read s.unit.mem off.toNat).toNat⟩] } ∧
    (off.toNat % 2 = 0 → exec (.rd16 off) s = .next { s with rdata := s.rdata ++ [⟨s.master,
      BitVec.ofNat 32 ((Memory.read s.unit.mem off.toNat).toNat + (Memory.read s.unit.mem (off.toNat + 1)).toNat * 2 ^ 8)⟩] }) ∧
    (off.toNat % 4 = 0 → exec (.rd32 off) s = .next { s with rdata := s.rdata ++ [⟨s.master,
      BitVec.ofNat 32 ((Memory.read s.unit.mem off.toNat).toNat + (Memory.read s.unit.mem (off.toNat + 1)).toNat * 2 ^ 8 +
        (Memory.read s.unit.mem (off.toNat + 2)).toNat * 2 ^ 16 + (Memory.read s.unit.mem (off.toNat + 3)).toNat * 2 ^ 24)⟩] })

/-- A 4-byte register read returns the register (R57): each of the seven, OUT_LEN while idle. -/
def Obligations.RegisterReadsReturnTheRegister : Prop :=
  ∀ s : State,
    exec (.rd32 0x00#18) s = .next { s with rdata := s.rdata ++ [⟨s.master, 0xAE5C0001#32⟩] } ∧
    exec (.rd32 0x04#18) s = .next { s with rdata := s.rdata ++ [⟨s.master, BitVec.ofNat 32 s.params.maxIn⟩] } ∧
    exec (.rd32 0x08#18) s = .next { s with rdata := s.rdata ++ [⟨s.master, 0x00000000#32⟩] } ∧
    exec (.rd32 0x0C#18) s = .next { s with rdata := s.rdata ++ [⟨s.master, s.unit.status.word⟩] } ∧
    exec (.rd32 0x10#18) s = .next { s with rdata := s.rdata ++ [⟨s.master, s.unit.passLen⟩] } ∧
    exec (.rd32 0x14#18) s = .next { s with rdata := s.rdata ++ [⟨s.master, s.unit.inLen⟩] } ∧
    (s.unit.status.busy = false →
      exec (.rd32 0x18#18) s = .next { s with rdata := s.rdata ++ [⟨s.master, s.unit.outLen⟩] })

/-- The layout of STATUS (R25, R32): every bit of the word. -/
def Obligations.StatusWordHasTheTabulatedLayout : Prop :=
  ∀ st : Status,
    st.word.getLsbD 0 = st.busy ∧ st.word.getLsbD 1 = st.done ∧ st.word.getLsbD 2 = st.valid ∧ st.word.getLsbD 3 = false ∧
    st.word.extractLsb' 4 3 = st.err ∧ st.word.getLsbD 7 = false ∧ st.word.getLsbD 8 = st.accErr ∧
    st.word.getLsbD 9 = st.busyViol ∧ ∀ i, 10 ≤ i → st.word.getLsbD i = false

/-- While busy, a well-formed read of OUT or OUT_LEN returns a draw of the access width, zero-extended, and changes no
unit (R59). The draw is the low bytes of `Config.freeWord` at the counter `draws`, which it advances (log 2): whatever that free
value is, the statement holds. -/
def Obligations.OutputReadsWhileBusyAreDraws : Prop :=
  ∀ (s : State) (off : Offset), s.unit.status.busy = true →
    (region s.params off.toNat = .out →
      exec (.rd8 off) s = .next { s with
        rdata := s.rdata ++ [⟨s.master, BitVec.ofNat 32 ((Config.freeWord s.draws).toNat % 2 ^ 8)⟩], draws := s.draws + 1 } ∧
      (off.toNat % 2 = 0 → exec (.rd16 off) s = .next { s with
        rdata := s.rdata ++ [⟨s.master, BitVec.ofNat 32 ((Config.freeWord s.draws).toNat % 2 ^ 16)⟩], draws := s.draws + 1 }) ∧
      (off.toNat % 4 = 0 → exec (.rd32 off) s = .next { s with
        rdata := s.rdata ++ [⟨s.master, Config.freeWord s.draws⟩], draws := s.draws + 1 })) ∧
    (off.toNat = 0x18 → exec (.rd32 off) s = .next { s with
      rdata := s.rdata ++ [⟨s.master, Config.freeWord s.draws⟩], draws := s.draws + 1 })

/-- No read writes a unit, except that a malformed one sets ACC_ERR (R61): the frame of RD8, RD16 and RD32. A well-formed
read leaves every unit as it was; a malformed one sets ACC_ERR of its unit and leaves all else. -/
def Obligations.ReadsHaveNoSideEffect : Prop :=
  ∀ (off : Offset) (w : Width) (i : Instr) (s t : State),
    (i = .rd8 off ∧ w = .b1) ∨ (i = .rd16 off ∧ w = .b2) ∨ (i = .rd32 off ∧ w = .b4) → exec i s = .next t →
    (malformed s.params off.toNat w false = false → t.units = s.units) ∧
    (malformed s.params off.toNat w false = true →
      t.units = s.units.set s.active { s.unit with status := { s.unit.status with accErr := true } }) ∧
    t.params = s.params ∧ t.active = s.active ∧ t.master = s.master ∧ t.hosts = s.hosts ∧ t.turns = s.turns ∧
    ∃ v, t.rdata = s.rdata ++ [⟨s.master, v⟩]

/-- A well-formed write to PASS or IN while idle stores the low bytes of WDATA, lowest at the lowest offset (R56), and
changes nothing else: no other byte, no register, no other unit, no response. -/
def Obligations.BufferWritesStoreLittleEndian : Prop :=
  ∀ (s : State) (off : Offset) (v : Word32), Memory.wf s.unit.mem → s.unit.status.busy = false →
    region s.params off.toNat = .pass ∨ region s.params off.toNat = .inp →
    (∃ m, exec (.wr8 off v) s = .next (s.setUnit { s.unit with mem := m }) ∧
      Memory.read m off.toNat = v.extractLsb' 0 8 ∧
      ∀ a, a < off.toNat ∨ off.toNat + 1 ≤ a → Memory.read m a = Memory.read s.unit.mem a) ∧
    (off.toNat % 2 = 0 → ∃ m, exec (.wr16 off v) s = .next (s.setUnit { s.unit with mem := m }) ∧
      Memory.read m off.toNat = v.extractLsb' 0 8 ∧ Memory.read m (off.toNat + 1) = v.extractLsb' 8 8 ∧
      ∀ a, a < off.toNat ∨ off.toNat + 2 ≤ a → Memory.read m a = Memory.read s.unit.mem a) ∧
    (off.toNat % 4 = 0 → ∃ m, exec (.wr32 off v) s = .next (s.setUnit { s.unit with mem := m }) ∧
      Memory.read m off.toNat = v.extractLsb' 0 8 ∧ Memory.read m (off.toNat + 1) = v.extractLsb' 8 8 ∧
      Memory.read m (off.toNat + 2) = v.extractLsb' 16 8 ∧ Memory.read m (off.toNat + 3) = v.extractLsb' 24 8 ∧
      ∀ a, a < off.toNat ∨ off.toNat + 4 ≤ a → Memory.read m a = Memory.read s.unit.mem a)

/-- A 4-byte register write while idle (R57): PASS_LEN and IN_LEN take the value, and CMD accepts it. -/
def Obligations.LengthRegisterWritesTakeTheValue : Prop :=
  ∀ (s : State) (v : Word32), s.unit.status.busy = false →
    exec (.wr32 0x10#18 v) s = .next (s.setUnit { s.unit with passLen := v }) ∧
    exec (.wr32 0x14#18 v) s = .next (s.setUnit { s.unit with inLen := v })

/-- A STATUS write clears ACC_ERR and BUSY_VIOL where its bits 8 and 9 are 1 and has no other effect, busy or not (R57): it never
changes BUSY, DONE, VALID or ERR, whatever else is set in it, and the reserved bits read 0 after it (R32). -/
def Obligations.StatusWritesClearTheStickyFlags : Prop :=
  ∀ (s : State) (v : Word32), ∃ st : Status,
    exec (.wr32 0x0C#18 v) s = .next (s.setUnit { s.unit with status := st }) ∧
    st.accErr = (if v.getLsbD 8 then false else s.unit.status.accErr) ∧
    st.busyViol = (if v.getLsbD 9 then false else s.unit.status.busyViol) ∧
    st.busy = s.unit.status.busy ∧ st.done = s.unit.status.done ∧ st.valid = s.unit.status.valid ∧ st.err = s.unit.status.err ∧
    st.word.getLsbD 3 = false ∧ st.word.getLsbD 7 = false ∧ ∀ i, 10 ≤ i → st.word.getLsbD i = false

/-- A well-formed write to a busy-guarded location while BUSY = 1 is dropped and sets BUSY_VIOL only (R58, R223). -/
def Obligations.GuardedWritesWhileBusyAreDropped : Prop :=
  ∀ (s : State) (off : Offset) (v : Word32) (t : State), s.unit.status.busy = true →
    t = s.setUnit { s.unit with status := { s.unit.status with busyViol := true } } →
    (off.toNat = 0x08 ∨ off.toNat = 0x10 ∨ off.toNat = 0x14 → exec (.wr32 off v) s = .next t) ∧
    (region s.params off.toNat = .pass ∨ region s.params off.toNat = .inp →
      exec (.wr8 off v) s = .next t ∧ (off.toNat % 2 = 0 → exec (.wr16 off v) s = .next t) ∧
      (off.toNat % 4 = 0 → exec (.wr32 off v) s = .next t))

/-- accept(v) (R200): a CMD write while idle takes every word, legal or not, and changes only PENDING_CMD, BUSY, DONE,
VALID and ERR. -/
def Obligations.CommandWritesAreAccepted : Prop :=
  ∀ (s : State) (v : Word32), s.unit.status.busy = false →
    exec (.wr32 0x08#18 v) s = .next (s.setUnit { s.unit with
      pendingCmd := v
      status := { busy := true, done := false, valid := false, err := 0,
                  accErr := s.unit.status.accErr, busyViol := s.unit.status.busyViol } })

/-- What a host writes to a buffer or a length register while idle it reads back at once (R216). -/
def Obligations.WrittenValuesReadBack : Prop :=
  ∀ (s t : State) (off : Offset) (v : Word32), s.live → Memory.wf s.unit.mem → s.unit.status.busy = false →
    region s.params off.toNat = .pass ∨ region s.params off.toNat = .inp ∨ off = 0x10#18 ∨ off = 0x14#18 →
    (region s.params off.toNat ≠ .reg → exec (.wr8 off v) s = .next t →
      exec (.rd8 off) t = .next { t with rdata := t.rdata ++ [⟨t.master, v &&& 0xFF#32⟩] }) ∧
    (region s.params off.toNat ≠ .reg → off.toNat % 2 = 0 → exec (.wr16 off v) s = .next t →
      exec (.rd16 off) t = .next { t with rdata := t.rdata ++ [⟨t.master, v &&& 0xFFFF#32⟩] }) ∧
    (off.toNat % 4 = 0 → exec (.wr32 off v) s = .next t →
      exec (.rd32 off) t = .next { t with rdata := t.rdata ++ [⟨t.master, v⟩] })

/-! ## Key derivation (40_key_derivation.md) -/

/-- KDF is a positional fit (R101, R103 items 1 and 2): 32 bytes, byte i being PASS_BUF[i] below min(PASS_LEN, 32) and zero
above, so bytes at or beyond PASS_LEN never matter. -/
def Obligations.KeyIsThePassphraseFittedTo32Bytes : Prop :=
  (∀ (b : List Byte) (n : Nat), (kdf b n).length = 32 ∧
    ∀ i, i < 32 → (kdf b n).getD i 0 = if i < min n 32 then b.getD i 0 else 0) ∧
  (∀ (b c : List Byte) (n k : Nat), min n 32 = min k 32 → (∀ i, i < min n 32 → b.getD i 0 = c.getD i 0) → kdf b n = kdf c k)

/-- DERIVE_KEY (R105): it always succeeds with the derived key as its result, whatever IN_LEN holds. -/
def Obligations.DeriveKeyOutputsTheKey : Prop :=
  ∀ s : State, s.params.wf = true → Memory.wf s.unit.mem →
    ∃ u, exec .deriveKey s = .next (s.setUnit u) ∧
      endedOk s.params s.unit u (kdf (Memory.slice s.unit.mem 0x20 32) s.unit.passLen.toNat) ∧ u.outLen = 32

/-- `setpass` does the host's duty (R102, R92): on an idle unit, with nothing scheduled, the transactions it expands to run
to their end and leave KDF(PASS_BUF, PASS_LEN) = take32(b), the first 32 bytes of the passphrase padded with zeros. That
with nothing scheduled the one master moves is the model's default order (log 3). -/
def Obligations.SetpassLoadsThePassphrase : Prop :=
  ∀ (s : State) (u window : Nat) (b : List Byte) (rest : List HostOp), s.inv → s.turns = [] →
    (∀ v ∈ s.units, v.status.busy = false) → unitAt s.params window = some u → s.hosts = [setpassOps window b ++ rest] →
    ∃ t, core.run (setpassOps window b).length s = .next t ∧ t.hosts = [rest] ∧
      (t.units.getD u .reset).key = (b ++ List.replicate 32 0).take 32

/-! ## The cipher (41_block_cipher.md) -/

/-- The S-box table is the affine map of the inverse in GF(2^8) (R124): at every other byte than 0 there is an inverse and the
entry is its affine image, and at 0 the entry is the affine image of 0. -/
def Obligations.SboxIsTheAffineMapOfTheInverse : Prop :=
  (∀ a : Byte, a ≠ 0x00#8 → ∃ b : Byte, gmul a b = 0x01#8 ∧ ∀ i, i < 8 →
    (sbox a).getLsbD i = (b.getLsbD i ^^ b.getLsbD ((i + 4) % 8) ^^ b.getLsbD ((i + 5) % 8) ^^ b.getLsbD ((i + 6) % 8) ^^
      b.getLsbD ((i + 7) % 8) ^^ (0x63#8).getLsbD i)) ∧
  sbox 0x00#8 = 0x63#8

/-- The inverse transformations undo the forward ones on every state (R126, R128, R130). -/
def Obligations.InverseTransformationsUndoTheForwardOnes : Prop :=
  ∀ s : Block, invSubBytes (subBytes s) = s ∧ invShiftRows (shiftRows s) = s ∧ invMixColumns (mixColumns s) = s

/-- KeyExpansion satisfies the recurrence of R132 for every 32-byte key. -/
def Obligations.KeyExpansionSatisfiesItsRecurrence : Prop :=
  ∀ K : List Byte, K.length = 32 → (keyExpansion K).length = 60 ∧
    (∀ i, i < 8 → ((keyExpansion K).getD i .zero).bytes = (K.drop (4 * i)).take 4) ∧
    ∀ i, 8 ≤ i → i < 60 → (keyExpansion K).getD i .zero =
      ((keyExpansion K).getD (i - 8) .zero).xor
        (if i % 8 = 0 then (subWord (rotWord ((keyExpansion K).getD (i - 1) .zero))).xor ⟨BitVec.ofNat 8 (2 ^ (i / 8 - 1)), 0, 0, 0⟩
         else if i % 8 = 4 then subWord ((keyExpansion K).getD (i - 1) .zero) else (keyExpansion K).getD (i - 1) .zero)

/-- FIPS-197 C.3, the worked example of R133 and R134. -/
def Obligations.CipherMeetsTheStandardVector : Prop :=
  aesEnc ((List.range 32).map (BitVec.ofNat 8)) (Block.load [0x00, 0x11, 0x22, 0x33, 0x44, 0x55, 0x66, 0x77, 0x88, 0x99, 0xaa, 0xbb, 0xcc, 0xdd, 0xee, 0xff]) =
    Block.load [0x8e, 0xa2, 0xb7, 0xca, 0x51, 0x67, 0x45, 0xbf, 0xea, 0xfc, 0x49, 0x90, 0x4b, 0x49, 0x60, 0x89]

/-- The laws of the cipher (R135 items 1 to 3): decryption and encryption undo each other under every key, so encryption is
a bijection on blocks. -/
def Obligations.CipherIsAnInvertiblePair : Prop :=
  ∀ K : List Byte, (∀ B, aesDec K (aesEnc K B) = B) ∧ (∀ B, aesEnc K (aesDec K B) = B) ∧ Function.Bijective (aesEnc K)

/-! ## Encryption (42_encrypt.md) -/

/-- The laws of Pad (R161), and that Unpad accepts exactly the padded strings and returns what was padded (R181). -/
def Obligations.PaddingIsRemovedExactly : Prop :=
  (∀ p : List Byte, (pad p).length = (p.length / 16 + 1) * 16 ∧
    1 ≤ (pad p).length - p.length ∧ (pad p).length - p.length ≤ 16 ∧ (pad p).take p.length = p ∧
    (∀ i, p.length ≤ i → i < (pad p).length → (pad p).getD i 0 = BitVec.ofNat 8 ((pad p).length - p.length)) ∧
    unpad (pad p) = some p) ∧
  (∀ m r : List Byte, m.length % 16 = 0 → m ≠ [] → (unpad m = some r ↔ m = pad r))

/-- ENCRYPT within its capacity (R163) completes with CBC_Enc of the padded input under the derived key and the zero IV. A unit
that may fail makes one draw, and when the draw says so completes with CIPHER_FAILURE, code 1, instead. -/
def Obligations.EncryptOutputsTheCiphertext : Prop :=
  ∀ s : State, s.params.wf = true → Memory.wf s.unit.mem → s.unit.inLen.toNat ≤ s.params.maxIn →
    ∃ u v, endedOk s.params s.unit u
        (cbcEnc (kdf (Memory.slice s.unit.mem 0x20 32) s.unit.passLen.toNat) ⟨⟨0, 0, 0, 0⟩, ⟨0, 0, 0, 0⟩, ⟨0, 0, 0, 0⟩, ⟨0, 0, 0, 0⟩⟩
          (pad (Memory.slice s.unit.mem 0x10000 s.unit.inLen.toNat))) ∧
      endedErr s.params s.unit v 1 ∧
      (s.params.cipherFaultPossible = false → exec .encrypt s = .next (s.setUnit u)) ∧
      (s.params.cipherFaultPossible = true →
        exec .encrypt s = .next { s.setUnit (if Config.freeFault s.draws then v else u) with draws := s.draws + 1 })

/-- ENCRYPT above its capacity (R163, R220, R224) completes with LENGTH_EXCEEDED, code 4, on every unit: no draw is made and
none could change that. -/
def Obligations.EncryptRefusesAnOverlongInput : Prop :=
  ∀ s : State, s.params.maxIn < s.unit.inLen.toNat →
    ∃ u, exec .encrypt s = .next (s.setUnit u) ∧ endedErr s.params s.unit u 4

/-- The length law of ENCRYPT (R164): a successful ENCRYPT of n bytes has OUT_LEN = ((n div 16) + 1) * 16, between 16 and
OUT_CAP; that fits IN_BUF again exactly when n ≤ MAX_IN - 1 (R184). -/
def Obligations.CiphertextLengthLaw : Prop :=
  ∀ s t : State, s.params.wf = true → exec .encrypt s = .next t → t.unit.status.valid = true →
    t.unit.outLen.toNat = (s.unit.inLen.toNat / 16 + 1) * 16 ∧ 16 ≤ t.unit.outLen.toNat ∧
    t.unit.outLen.toNat ≤ s.params.outCap ∧
    (t.unit.outLen.toNat ≤ s.params.maxIn ↔ s.unit.inLen.toNat ≤ s.params.maxIn - 1)

/-- ENCRYPT is deterministic (R165): two successful ENCRYPTs with the same IN_LEN, input bytes and KDF value give the same
OUT_LEN and the same byte at every index both OUT_BUFs have, whatever else the two states hold. -/
def Obligations.EncryptIsDeterministic : Prop :=
  ∀ s1 s2 t1 t2 : State, s1.params.wf = true → s2.params.wf = true → Memory.wf s1.unit.mem → Memory.wf s2.unit.mem →
    exec .encrypt s1 = .next t1 → exec .encrypt s2 = .next t2 → t1.unit.status.valid = true → t2.unit.status.valid = true →
    s1.unit.inLen = s2.unit.inLen → s1.unit.inBytes = s2.unit.inBytes → s1.unit.key = s2.unit.key →
    t1.unit.outLen = t2.unit.outLen ∧
    ∀ i, i < s1.params.outCap → i < s2.params.outCap →
      Memory.read t1.unit.mem (0x20000 + i) = Memory.read t2.unit.mem (0x20000 + i)

/-- The prefix law (R167): padded plaintexts that share their blocks 0 to q-1 give ciphertexts that share them, and so do
plaintexts that share their first 16q bytes. -/
def Obligations.SharedPlaintextPrefixGivesSharedCiphertextPrefix : Prop :=
  ∀ (K : List Byte) (iv : Block) (p1 p2 : List Byte) (q : Nat), 16 * q ≤ p1.length → 16 * q ≤ p2.length →
    p1.take (16 * q) = p2.take (16 * q) →
    (cbcEnc K iv p1).take (16 * q) = (cbcEnc K iv p2).take (16 * q) ∧
    (cbcEnc K iv (pad p1)).take (16 * q) = (cbcEnc K iv (pad p2)).take (16 * q)

/-! ## Decryption (43_decrypt.md) -/

/-- CBC_Dec undoes CBC_Enc under every key and IV, and CBC_Enc undoes CBC_Dec (R180, R162). -/
def Obligations.CbcDecryptionUndoesEncryption : Prop :=
  ∀ (K : List Byte) (iv : Block) (m : List Byte), m.length % 16 = 0 →
    cbcDec K iv (cbcEnc K iv m) = m ∧ cbcEnc K iv (cbcDec K iv m) = m ∧
    (cbcEnc K iv m).length = m.length ∧ (cbcDec K iv m).length = m.length

/-- Error propagation (R187): decrypted block j is AES_Dec of ciphertext block j XORed with the block before it, so a change to
ciphertext block j changes decrypted blocks j and j+1 only. -/
def Obligations.CiphertextChangesSpreadToTwoBlocks : Prop :=
  (∀ (K : List Byte) (iv : Block) (c : List Byte) (j : Nat), c.length % 16 = 0 → 16 * j < c.length →
    Block.load ((cbcDec K iv c).drop (16 * j)) =
      (aesDec K (Block.load (c.drop (16 * j)))).xor (if j = 0 then iv else Block.load (c.drop (16 * (j - 1))))) ∧
  (∀ (K : List Byte) (iv : Block) (c d : List Byte) (j : Nat), c.length = d.length → c.length % 16 = 0 →
    (∀ i, i / 16 ≠ j → c.getD i 0 = d.getD i 0) →
    ∀ i, i / 16 ≠ j → i / 16 ≠ j + 1 → (cbcDec K iv c).getD i 0 = (cbcDec K iv d).getD i 0)

/-- DECRYPT of a loadable length whose padding is valid (R182) completes with the bytes Unpad returns. -/
def Obligations.DecryptOutputsThePlaintext : Prop :=
  ∀ (s : State) (r : List Byte), s.params.wf = true → Memory.wf s.unit.mem → s.unit.inLen.toNat % 16 = 0 →
    0 < s.unit.inLen.toNat → s.unit.inLen.toNat ≤ s.params.maxIn →
    unpad (cbcDec (kdf (Memory.slice s.unit.mem 0x20 32) s.unit.passLen.toNat)
      ⟨⟨0, 0, 0, 0⟩, ⟨0, 0, 0, 0⟩, ⟨0, 0, 0, 0⟩, ⟨0, 0, 0, 0⟩⟩ (Memory.slice s.unit.mem 0x10000 s.unit.inLen.toNat)) = some r →
    ∃ u, exec .decrypt s = .next (s.setUnit u) ∧ endedOk s.params s.unit u r ∧
      u.outLen.toNat < s.unit.inLen.toNat ∧ s.unit.inLen.toNat ≤ u.outLen.toNat + 16

/-- DECRYPT's failures in the order of R224: code 2 for a length that is 0 or no multiple of 16, whatever its size; then code
4 above MAX_IN; then code 3 when Unpad fails. -/
def Obligations.DecryptReportsItsFailuresInOrder : Prop :=
  ∀ s : State,
    (s.unit.inLen.toNat = 0 ∨ s.unit.inLen.toNat % 16 ≠ 0 →
      ∃ u, exec .decrypt s = .next (s.setUnit u) ∧ endedErr s.params s.unit u 2) ∧
    (0 < s.unit.inLen.toNat → s.unit.inLen.toNat % 16 = 0 → s.params.maxIn < s.unit.inLen.toNat →
      ∃ u, exec .decrypt s = .next (s.setUnit u) ∧ endedErr s.params s.unit u 4) ∧
    (0 < s.unit.inLen.toNat → s.unit.inLen.toNat % 16 = 0 → s.unit.inLen.toNat ≤ s.params.maxIn →
      unpad (cbcDec (kdf (Memory.slice s.unit.mem 0x20 32) s.unit.passLen.toNat) iv0
        (Memory.slice s.unit.mem 0x10000 s.unit.inLen.toNat)) = none →
      ∃ u, exec .decrypt s = .next (s.setUnit u) ∧ endedErr s.params s.unit u 3)

/-- The round trip (R184): after a successful ENCRYPT on one unit state, a DECRYPT on any unit state whose input is that
result and whose KDF value is the same succeeds and gives the plaintext back, whenever the ciphertext fits IN_BUF. -/
def Obligations.DecryptReturnsWhatWasEncrypted : Prop :=
  ∀ s t d : State, s.params.wf = true → Memory.wf s.unit.mem → exec .encrypt s = .next t → t.unit.status.valid = true →
    d.params.wf = true → Memory.wf d.unit.mem → d.unit.key = s.unit.key → d.unit.inLen = t.unit.outLen →
    d.unit.inLen.toNat ≤ d.params.maxIn → d.unit.inBytes = Memory.slice t.unit.mem 0x20000 t.unit.outLen.toNat →
    ∃ u, exec .decrypt d = .next (d.setUnit u) ∧ endedOk d.params d.unit u s.unit.inBytes

/-! ## ZEROIZE and illegal commands (44_control.md) -/

/-- ZEROIZE (R204): every buffer byte and every length is zero and STATUS reports success; the sticky flags stay. -/
def Obligations.ZeroizeClearsBuffersAndLengths : Prop :=
  ∀ s : State, ∃ u, exec .zeroize s = .next (s.setUnit u) ∧
    u.passLen = 0 ∧ u.inLen = 0 ∧ u.outLen = 0 ∧ scrubDone u ∧
    (∀ off, (0x20 ≤ off ∧ off ≤ 0x3F) ∨ (0x10000 ≤ off ∧ off < 0x10000 + s.params.maxIn) ∨
      (0x20000 ≤ off ∧ off < 0x20000 + s.params.outCap) → Memory.read u.mem off = 0x00#8) ∧
    (s.unit.inv s.params → u.mem = []) ∧
    u.status = { busy := false, done := true, valid := true, err := 0,
                 accErr := s.unit.status.accErr, busyViol := s.unit.status.busyViol }

/-- ILLEGAL (R205): a completion of any word but 1 to 4 ends in ILLEGAL_COMMAND, code 5, with no output and its inputs kept. -/
def Obligations.IllegalCommandsEndInCodeFive : Prop :=
  ∀ (s : State) (u : Nat) (v : UnitState), s.units[u]? = some v → v.status.busy = true →
    v.pendingCmd = 0 ∨ 5 ≤ v.pendingCmd.toNat →
    ∃ t v', engineTurn u s = .next t ∧ t.units[u]? = some v' ∧ endedErr s.params v v' 5

/-! ## The host's text encoding (40_key_derivation.md R100) -/

/-- utf8 of one code point, by the table of R100: how many bytes it has, that its bits are the code point's, and that
exactly the surrogates and the numbers above U+10FFFF are refused. -/
def Obligations.Utf8FollowsItsTable : Prop :=
  (∀ c : Nat, utf8Char c = none ↔ (0xD800 ≤ c ∧ c ≤ 0xDFFF) ∨ 0x10FFFF < c) ∧
  (∀ c : Nat, c ≤ 0x7F → utf8Char c = some [BitVec.ofNat 8 c]) ∧
  (∀ c : Nat, 0x80 ≤ c → c ≤ 0x7FF → ∃ a b : Byte, utf8Char c = some [a, b] ∧ a.toNat / 32 = 0b110 ∧ b.toNat / 64 = 0b10 ∧
    c = a.toNat % 32 * 2 ^ 6 + b.toNat % 64) ∧
  (∀ c : Nat, 0x800 ≤ c → c ≤ 0xFFFF → ¬ (0xD800 ≤ c ∧ c ≤ 0xDFFF) → ∃ a b d : Byte, utf8Char c = some [a, b, d] ∧
    a.toNat / 16 = 0b1110 ∧ b.toNat / 64 = 0b10 ∧ d.toNat / 64 = 0b10 ∧
    c = a.toNat % 16 * 2 ^ 12 + b.toNat % 64 * 2 ^ 6 + d.toNat % 64) ∧
  (∀ c : Nat, 0x10000 ≤ c → c ≤ 0x10FFFF → ∃ a b d e : Byte, utf8Char c = some [a, b, d, e] ∧
    a.toNat / 8 = 0b11110 ∧ b.toNat / 64 = 0b10 ∧ d.toNat / 64 = 0b10 ∧ e.toNat / 64 = 0b10 ∧
    c = a.toNat % 8 * 2 ^ 18 + b.toNat % 64 * 2 ^ 12 + d.toNat % 64 * 2 ^ 6 + e.toNat % 64)

/-! ## The host's `readout` (30_encoding.md R92) -/

/-- One turn of `readout` (R92): it is `rd32 OUT_LEN`, after which the master's program goes on with the reads of the L bytes
its RDATA gives, busy or not: `rd32 OUT_BUF+4j` for j < L div 4, then `rd8 OUT_BUF+i` for each remaining i < L (offsets modulo 2^18, log 24). -/
def Obligations.ReadoutReadsAsManyBytesAsOutLenReturned : Prop :=
  (∀ (s : State) (m window : Nat) (rest : List HostOp) (u : Nat) (ts : List Turn),
    s.turns = .host m :: ts → s.hosts[m]? = some (.readout window :: rest) → unitAt s.params window = some u →
    ∃ t v, exec (.rd32 0x18#18) { s with turns := ts, master := m, active := u, hosts := s.hosts.set m rest } = .next t ∧
      t.rdata = s.rdata ++ [⟨m, v⟩] ∧
      step s = .next { t with hosts := s.hosts.set m (readoutDataOps window v.toNat ++ rest) }) ∧
  (∀ window n : Nat, (readoutDataOps window n).length = n / 4 + n % 4 ∧
    (∀ j, j < n / 4 →
      (readoutDataOps window n)[j]? = some (.request window (rd32Request (BitVec.ofNat 18 (0x20000 + 4 * j))))) ∧
    (∀ i, 4 * (n / 4) ≤ i → i < n → (readoutDataOps window n)[n / 4 + (i - 4 * (n / 4))]? =
      some (.request window (packBusreq false 0b00#2 (BitVec.ofNat 18 (0x20000 + i)) 0#32))))

/-- `readout -> r` returns the result (R92): on an idle unit, with nothing scheduled, the transactions it expands to run to their
end, change no unit, and r is OUT_BUF[0..OUT_LEN). That with nothing scheduled the one master moves is the model's default
order (log 3). -/
def Obligations.ReadoutReturnsTheResult : Prop :=
  ∀ (s : State) (u window : Nat) (v : UnitState) (rest : List HostOp), s.inv → s.turns = [] →
    (∀ w ∈ s.units, w.status.busy = false) → unitAt s.params window = some u → s.units[u]? = some v →
    s.hosts = [readoutOps window ++ rest] →
    ∃ t, core.run (1 + (v.outLen.toNat / 4 + v.outLen.toNat % 4)) s = .next t ∧ t.hosts = [rest] ∧ t.units = s.units ∧
      t.readoutFrom 0 (s.rdataOf 0).length = Memory.slice v.mem 0x20000 v.outLen.toNat
end

