-- ==== Sys2Proof/Laws/Cipher.lean ====
section
/-!
SUPPORT. The cipher: linearity of GF(2^8) multiplication, the algebra of words and blocks under XOR, and loading and storing.
-/

namespace Sys2Proof.Machine

/-! ## XOR of bytes, words and blocks -/

/-- Regrouping: the XOR of two XORs, by lanes. -/
theorem byte_xor_xor (a b c d : Byte) : (a ^^^ b) ^^^ (c ^^^ d) = (a ^^^ c) ^^^ (b ^^^ d) := by ac_rfl

@[simp] theorem word_xor_zero (a : AesWord) : a.xor .zero = a := by cases a; simp [AesWord.xor]
theorem word_xor_comm (a b : AesWord) : a.xor b = b.xor a := by simp [AesWord.xor, BitVec.xor_comm]
theorem word_xor_assoc (a b c : AesWord) : (a.xor b).xor c = a.xor (b.xor c) := by simp [AesWord.xor, BitVec.xor_assoc]
@[simp] theorem word_xor_self (a : AesWord) : a.xor a = .zero := by simp [AesWord.xor]
@[simp] theorem block_xor_zero (a : Block) : a.xor .zero = a := by cases a; simp [Block.xor]
theorem block_xor_comm (a b : Block) : a.xor b = b.xor a := by simp [Block.xor, word_xor_comm]
theorem block_xor_assoc (a b c : Block) : (a.xor b).xor c = a.xor (b.xor c) := by simp [Block.xor, word_xor_assoc]
@[simp] theorem block_xor_self (a : Block) : a.xor a = .zero := by simp [Block.xor]

/-- XOR with a block is its own inverse. -/
@[simp] theorem block_xor_xor (a b : Block) : (a.xor b).xor b = a := by simp [block_xor_assoc]

/-! ## GF(2^8) multiplication is linear in the first factor -/

/-- xtime as a shift and a conditional XOR. -/
theorem xtime_eq (a : Byte) : xtime a = (a <<< 1) ^^^ (if a.getLsbD 7 then 0x1B#8 else 0#8) := by
  unfold xtime; split <;> simp

theorem xtime_xor (a b : Byte) : xtime (a ^^^ b) = xtime a ^^^ xtime b := by
  rw [xtime_eq, xtime_eq, xtime_eq, byte_xor_xor, BitVec.shiftLeft_xor_distrib, BitVec.getLsbD_xor]
  congr 1
  cases a.getLsbD 7 <;> cases b.getLsbD 7 <;> rfl

theorem xtimes_xor (n : Nat) (a b : Byte) : xtimes n (a ^^^ b) = xtimes n a ^^^ xtimes n b := by
  induction n with
  | zero => rfl
  | succ n ih => simp only [xtimes, ih, xtime_xor]

/-- • is linear over XOR in its first factor. -/
theorem gmul_xor (a b c : Byte) : gmul (a ^^^ b) c = gmul a c ^^^ gmul b c := by
  have step : ∀ (l : List Nat) (x y z : Byte), z = x ^^^ y →
      l.foldl (fun acc i => if c.getLsbD i then acc ^^^ xtimes i (a ^^^ b) else acc) z =
        l.foldl (fun acc i => if c.getLsbD i then acc ^^^ xtimes i a else acc) x ^^^
          l.foldl (fun acc i => if c.getLsbD i then acc ^^^ xtimes i b else acc) y := by
    intro l
    induction l with
    | nil => intro x y z h; exact h
    | cons i l ih =>
      intro x y z h
      simp only [List.foldl_cons]
      split
      · exact ih _ _ _ (by rw [h, xtimes_xor, byte_xor_xor])
      · exact ih _ _ _ h
  exact step _ _ _ _ (by simp)

/-! ## Loading and storing (R121) -/

@[simp] theorem store_length (b : Block) : b.store.length = 16 := rfl

@[simp] theorem load_store (b : Block) : Block.load b.store = b := rfl

/-- Loading reads the first sixteen bytes only. -/
theorem load_append (b : Block) (l : List Byte) : Block.load (b.store ++ l) = b := rfl

/-- Storing what was loaded gives the first sixteen bytes back. -/
theorem store_load {l : List Byte} (h : 16 ≤ l.length) : (Block.load l).store = l.take 16 := by
  match l, h with
  | a0 :: a1 :: a2 :: a3 :: a4 :: a5 :: a6 :: a7 :: a8 :: a9 :: a10 :: a11 :: a12 :: a13 :: a14 :: a15 :: l, _ => rfl

/-! ## Blocks of a byte string -/

@[simp] theorem takeBlocks_length (n : Nat) (bs : List Byte) : (takeBlocks n bs).length = n := by
  induction n generalizing bs with
  | zero => rfl
  | succ n ih => simp [takeBlocks, ih]

@[simp] theorem bytesOfBlocks_nil : bytesOfBlocks [] = [] := rfl
@[simp] theorem bytesOfBlocks_cons (b : Block) (bs : List Block) : bytesOfBlocks (b :: bs) = b.store ++ bytesOfBlocks bs := rfl

@[simp] theorem bytesOfBlocks_length (bs : List Block) : (bytesOfBlocks bs).length = 16 * bs.length := by
  induction bs with
  | nil => rfl
  | cons b bs ih => simp only [bytesOfBlocks_cons, List.length_append, store_length, ih, List.length_cons]; omega

/-- The blocks of a string of whole blocks store back to it. -/
theorem bytesOfBlocks_takeBlocks {n : Nat} {bs : List Byte} (h : bs.length = 16 * n) : bytesOfBlocks (takeBlocks n bs) = bs := by
  induction n generalizing bs with
  | zero => simp [takeBlocks, List.eq_nil_of_length_eq_zero (by simpa using h)]
  | succ n ih =>
    rw [takeBlocks, bytesOfBlocks_cons, store_load (by omega), ih (by simp; omega), List.take_append_drop]

theorem bytesOfBlocks_blocksOf {bs : List Byte} (h : bs.length % 16 = 0) : bytesOfBlocks (blocksOf bs) = bs :=
  bytesOfBlocks_takeBlocks (by omega)

/-- The blocks of stored blocks are those blocks. -/
theorem blocksOf_bytesOfBlocks (bs : List Block) : blocksOf (bytesOfBlocks bs) = bs := by
  have : ∀ bs : List Block, takeBlocks bs.length (bytesOfBlocks bs) = bs := by
    intro bs
    induction bs with
    | nil => rfl
    | cons b bs ih => rw [bytesOfBlocks_cons, List.length_cons, takeBlocks, load_append, List.drop_left' (by simp), ih]
  rw [blocksOf, bytesOfBlocks_length, Nat.mul_div_cancel_left _ (by omega), this]

@[simp] theorem cbcEncBlocks_length (e : Block → Block) (iv : Block) (bs : List Block) : (cbcEncBlocks e iv bs).length = bs.length := by
  induction bs generalizing iv with
  | nil => rfl
  | cons b bs ih => simp [cbcEncBlocks, ih]

@[simp] theorem cbcDecBlocks_length (d : Block → Block) (iv : Block) (bs : List Block) : (cbcDecBlocks d iv bs).length = bs.length := by
  induction bs generalizing iv with
  | nil => rfl
  | cons b bs ih => simp [cbcDecBlocks, ih]

/-- CBC_Enc's output is as long as its input's whole blocks. -/
theorem cbcEncWith_length (w : List AesWord) (iv : Block) (m : List Byte) : (cbcEncWith w iv m).length = 16 * (m.length / 16) := by
  simp [cbcEncWith, blocksOf]

theorem cbcDecWith_length (w : List AesWord) (iv : Block) (m : List Byte) : (cbcDecWith w iv m).length = 16 * (m.length / 16) := by
  simp [cbcDecWith, blocksOf]

/-! ## Padding and keys -/

/-- Between 1 and 16 bytes are added, to a multiple of 16. -/
theorem padCount_bounds (n : Nat) : 1 ≤ padCount n ∧ padCount n ≤ 16 ∧ n + padCount n = (n / 16 + 1) * 16 := by
  unfold padCount; omega

theorem pad_length_eq (p : List Byte) : (pad p).length = (p.length / 16 + 1) * 16 := by
  simpa [pad] using (padCount_bounds p.length).2.2

/-- What Unpad returns is between 1 and 16 bytes shorter than its input. -/
theorem unpad_length {m r : List Byte} (hm : 16 ≤ m.length) (h : unpad m = some r) :
    r.length < m.length ∧ m.length ≤ r.length + 16 := by
  simp only [unpad] at h
  split at h
  · simp at h
  · split at h
    · simp only [Option.some.injEq] at h
      rw [← h, List.length_take]; omega
    · simp at h

@[simp] theorem kdf_length (b : List Byte) (n : Nat) : (kdf b n).length = 32 := by simp [kdf]

@[simp] theorem unit_key_length (u : UnitState) : u.key.length = 32 := kdf_length _ _

@[simp] theorem passBytes_length (u : UnitState) : u.passBytes.length = 32 := by simp [UnitState.passBytes, Memory.slice]

@[simp] theorem inBytes_length (u : UnitState) : u.inBytes.length = u.inLen.toNat := by simp [UnitState.inBytes, Memory.slice]

end Sys2Proof.Machine
end

