-- ==== Sys2Proof/Laws/Memory.lean ====
section
/-!
SUPPORT. Memory: a read after a write, that every operation keeps the canonical form, and what each operation leaves alone.
-/

namespace Sys2Proof.Machine

@[simp] theorem read_nil (a : Nat) : Memory.read [] a = 0 := rfl

/-- A byte that no entry lists reads as 0x00. -/
theorem read_of_not_listed {m : Memory} {a : Nat} (h : ∀ c ∈ m, c.1 ≠ a) : Memory.read m a = 0 := by
  induction m with
  | nil => rfl
  | cons c m ih =>
    simp only [List.mem_cons, forall_eq_or_imp] at h
    simp [Memory.read, Ne.symm h.1, ih h.2]

/-- Entries of a canonical memory stand after their head. -/
theorem wf_head_lt {c : Host.Cell} {m : Memory} (h : Memory.wf (c :: m)) : ∀ d ∈ m, c.1 < d.1 :=
  (List.pairwise_cons.mp h.1).1

theorem wf_tail {c : Host.Cell} {m : Memory} (h : Memory.wf (c :: m)) : Memory.wf m :=
  ⟨(List.pairwise_cons.mp h.1).2, fun d hd => h.2 d (List.mem_cons_of_mem _ hd)⟩

theorem wf_cons {c : Host.Cell} {m : Memory} (h : Memory.wf m) (hc : c.2 ≠ 0) (hlt : ∀ d ∈ m, c.1 < d.1) :
    Memory.wf (c :: m) :=
  ⟨List.pairwise_cons.mpr ⟨hlt, h.1⟩, fun d hd => by
    rcases List.mem_cons.mp hd with rfl | hd
    · exact hc
    · exact h.2 d hd⟩

/-- An offset below the head's is not listed. -/
theorem read_lt_head {c : Host.Cell} {m : Memory} {a : Nat} (h : Memory.wf (c :: m)) (ha : a ≤ c.1) : Memory.read m a = 0 :=
  read_of_not_listed fun d hd => by have := wf_head_lt h d hd; omega

/-- The entries of a memory after a write are old ones, or the one written. -/
theorem mem_write {m : Memory} {a : Nat} {v : Byte} {c : Host.Cell} (h : c ∈ Memory.write m a v) :
    c ∈ m ∨ (c = (a, v) ∧ v ≠ 0) := by
  induction m with
  | nil =>
    simp only [Memory.write] at h
    split at h
    · exact .inl h
    · rename_i hv; exact .inr ⟨by simpa using h, hv⟩
  | cons d m ih =>
    simp only [Memory.write] at h
    split at h
    · split at h
      · exact .inl h
      · rename_i hv
        rcases List.mem_cons.mp h with h | h
        · exact .inr ⟨h, hv⟩
        · exact .inl h
    · split at h
      · split at h
        · exact .inl (List.mem_cons_of_mem _ h)
        · rename_i hv
          rcases List.mem_cons.mp h with h | h
          · exact .inr ⟨h, hv⟩
          · exact .inl (List.mem_cons_of_mem _ h)
      · rcases List.mem_cons.mp h with h | h
        · exact .inl (h ▸ List.mem_cons_self)
        · exact (ih h).imp_left (List.mem_cons_of_mem _)

/-- A write keeps the canonical form. -/
theorem write_wf {m : Memory} (h : Memory.wf m) (a : Nat) (v : Byte) : Memory.wf (Memory.write m a v) := by
  induction m with
  | nil => simp only [Memory.write]; split <;> simp_all [Memory.wf, Memory.unlisted]
  | cons c m ih =>
    have hlt := wf_head_lt h
    simp only [Memory.write]
    split
    · split
      · exact h
      · rename_i ha hv
        refine wf_cons h hv fun d hd => ?_
        rcases List.mem_cons.mp hd with rfl | hd
        · exact ha
        · exact Nat.lt_trans ha (hlt d hd)
    · split
      · split
        · exact wf_tail h
        · rename_i ha hv
          exact wf_cons (wf_tail h) hv fun d hd => by have := hlt d hd; simp only; omega
      · rename_i h1 h2
        refine wf_cons (ih (wf_tail h)) (h.2 c (by simp)) fun d hd => ?_
        rcases mem_write hd with hd | ⟨rfl, -⟩
        · exact hlt d hd
        · simp only; omega

/-- A byte just written reads back. -/
theorem read_write_same {m : Memory} (h : Memory.wf m) (a : Nat) (v : Byte) : Memory.read (Memory.write m a v) a = v := by
  induction m with
  | nil => simp only [Memory.write]; split <;> simp_all [Memory.read]
  | cons c m ih =>
    simp only [Memory.write]
    split
    · rename_i ha
      split
      · rename_i hv
        have hne : a ≠ c.1 := by omega
        simp [Memory.read, hne, read_lt_head h (Nat.le_of_lt ha), hv, Memory.unlisted]
      · simp [Memory.read]
    · split
      · rename_i ha
        split
        · rename_i hv; rw [read_lt_head h (Nat.le_of_eq ha), hv]
        · simp [Memory.read]
      · rename_i h1 h2
        simp [Memory.read, h2, ih (wf_tail h)]

/-- A write leaves every other byte alone. -/
theorem read_write_other {m : Memory} {a b : Nat} (v : Byte) (h : b ≠ a) :
    Memory.read (Memory.write m a v) b = Memory.read m b := by
  induction m with
  | nil => simp only [Memory.write]; split <;> simp [Memory.read, h]
  | cons c m ih =>
    simp only [Memory.write]
    split
    · split <;> simp [Memory.read, h]
    · split
      · rename_i ha
        have : b ≠ c.1 := by omega
        split <;> simp [Memory.read, this, h]
      · simp [Memory.read, ih]

/-! ## Runs of bytes -/

theorem store_wf {m : Memory} (h : Memory.wf m) (a : Nat) (bs : List Byte) : Memory.wf (Memory.store m a bs) := by
  induction bs generalizing m a with
  | nil => exact h
  | cons b bs ih => exact ih (write_wf h a b) (a + 1)

/-- A store leaves every byte outside its run alone. -/
theorem read_store_other {m : Memory} {a x : Nat} {bs : List Byte} (h : x < a ∨ a + bs.length ≤ x) :
    Memory.read (Memory.store m a bs) x = Memory.read m x := by
  induction bs generalizing m a with
  | nil => rfl
  | cons b bs ih =>
    simp only [List.length_cons] at h
    rw [Memory.store, ih (by omega), read_write_other b (by omega)]

/-- A store's bytes read back. -/
theorem read_store {m : Memory} (h : Memory.wf m) (a : Nat) (bs : List Byte) {i : Nat} (hi : i < bs.length) :
    Memory.read (Memory.store m a bs) (a + i) = bs.getD i 0 := by
  induction bs generalizing m a i with
  | nil => simp at hi
  | cons b bs ih =>
    cases i with
    | zero => rw [Memory.store, read_store_other (by omega), Nat.add_zero, read_write_same h]; rfl
    | succ i =>
      have := ih (write_wf h a b) (a + 1) (i := i) (by simpa using hi)
      rw [Memory.store, show a + (i + 1) = a + 1 + i by omega, this]; rfl

/-- The entries after a store are old ones or stand inside its run. -/
theorem mem_store {m : Memory} {a : Nat} {bs : List Byte} {c : Host.Cell} (h : c ∈ Memory.store m a bs) :
    c ∈ m ∨ (a ≤ c.1 ∧ c.1 < a + bs.length) := by
  induction bs generalizing m a with
  | nil => exact .inl h
  | cons b bs ih =>
    rcases ih h with h | h
    · rcases mem_write h with h | ⟨rfl, -⟩
      · exact .inl h
      · right; simp
    · right; simp only [List.length_cons]; omega

theorem mem_clear {m : Memory} {lo hi : Nat} {c : Host.Cell} : c ∈ Memory.clear m lo hi ↔ c ∈ m ∧ (c.1 < lo ∨ hi ≤ c.1) := by
  simp only [Memory.clear, List.mem_filter, Bool.not_and, Bool.or_eq_true, Bool.not_eq_true', decide_eq_false_iff_not, not_le, not_lt]

theorem clear_wf {m : Memory} (h : Memory.wf m) (lo hi : Nat) : Memory.wf (Memory.clear m lo hi) :=
  ⟨h.1.filter _, fun c hc => h.2 c (mem_clear.mp hc).1⟩

/-- A cleared byte reads 0x00. -/
theorem read_clear_inside {m : Memory} {lo hi a : Nat} (h1 : lo ≤ a) (h2 : a < hi) : Memory.read (Memory.clear m lo hi) a = 0 :=
  read_of_not_listed fun c hc => by have := (mem_clear.mp hc).2; omega

/-- A clear leaves every byte outside its range alone. -/
theorem read_clear_outside {m : Memory} {lo hi a : Nat} (h : a < lo ∨ hi ≤ a) :
    Memory.read (Memory.clear m lo hi) a = Memory.read m a := by
  induction m with
  | nil => rfl
  | cons c m ih =>
    rw [Memory.clear, List.filter_cons]
    split
    · rw [Memory.read, Memory.read]; split
      · rfl
      · exact ih
    · rename_i hc
      have hc : lo ≤ c.1 ∧ c.1 < hi := by simpa using hc
      have : a ≠ c.1 := by omega
      simp only [Memory.read, this, if_false]; exact ih

/-! ## Slices and words -/

@[simp] theorem slice_length (m : Memory) (a n : Nat) : (Memory.slice m a n).length = n := by simp [Memory.slice]

theorem slice_getD (m : Memory) (a n : Nat) {i : Nat} (h : i < n) : (Memory.slice m a n).getD i 0 = Memory.read m (a + i) := by
  simp [Memory.slice, List.getD, h]

/-- Equal bytes give equal slices. -/
theorem slice_congr {m m' : Memory} {a n : Nat} (h : ∀ i, i < n → Memory.read m' (a + i) = Memory.read m (a + i)) :
    Memory.slice m' a n = Memory.slice m a n := by
  apply List.map_congr_left; intro i hi; exact h i (by simpa using hi)

@[simp] theorem bytesOfNat_length (k n : Nat) : (bytesOfNat k n).length = k := by
  induction k generalizing n with
  | zero => rfl
  | succ k ih => simp [bytesOfNat, ih]

theorem bytesOfNat_getD (k n : Nat) {i : Nat} (h : i < k) : (bytesOfNat k n).getD i 0 = BitVec.ofNat 8 (n / 256 ^ i) := by
  induction k generalizing n i with
  | zero => omega
  | succ k ih =>
    cases i with
    | zero => simp [bytesOfNat]
    | succ i =>
      have := ih (n / 256) (i := i) (by omega)
      rw [bytesOfNat, List.getD_cons_succ, this, Nat.div_div_eq_div_mul, pow_succ, Nat.mul_comm]

/-- The number of `k` bytes of `n` is `n` modulo 256^k. -/
theorem natOfBytes_bytesOfNat (k n : Nat) : natOfBytes (bytesOfNat k n) = n % 256 ^ k := by
  induction k generalizing n with
  | zero => simp [natOfBytes, bytesOfNat, Nat.mod_one]
  | succ k ih =>
    rw [bytesOfNat, natOfBytes, ih, pow_succ, Nat.mul_comm (256 ^ k) 256, Nat.mod_mul]
    simp

theorem natOfBytes_lt (bs : List Byte) : natOfBytes bs < 256 ^ bs.length := by
  induction bs with
  | nil => simp [natOfBytes]
  | cons b bs ih =>
    have := b.isLt
    rw [natOfBytes, List.length_cons, pow_succ]
    omega

theorem writeWord_wf {m : Memory} (h : Memory.wf m) (a n : Nat) (v : Word32) : Memory.wf (Memory.writeWord m a n v) :=
  store_wf h a _

/-- A word store leaves every byte outside it alone. -/
theorem read_writeWord_other {m : Memory} {a n x : Nat} {v : Word32} (h : x < a ∨ a + n ≤ x) :
    Memory.read (Memory.writeWord m a n v) x = Memory.read m x :=
  read_store_other (by simpa using h)

/-- Byte `i` of a word store is bits 8i+7:8i of the datum (R56). -/
theorem read_writeWord {m : Memory} (h : Memory.wf m) (a n : Nat) (v : Word32) {i : Nat} (hi : i < n) :
    Memory.read (Memory.writeWord m a n v) (a + i) = v.extractLsb' (8 * i) 8 := by
  rw [Memory.writeWord, read_store h a _ (by simpa using hi), bytesOfNat_getD n v.toNat hi]
  apply BitVec.eq_of_toNat_eq
  simp [BitVec.extractLsb'_toNat, Nat.shiftRight_eq_div_pow, pow_mul]

/-- The bytes of the number of a run of bytes are that run. -/
theorem bytesOfNat_natOfBytes (bs : List Byte) : bytesOfNat bs.length (natOfBytes bs) = bs := by
  induction bs with
  | nil => rfl
  | cons b bs ih =>
    have := b.isLt
    rw [List.length_cons, bytesOfNat, natOfBytes, show (b.toNat + 256 * natOfBytes bs) / 256 = natOfBytes bs by omega, ih]
    congr 1
    apply BitVec.eq_of_toNat_eq
    simp; omega

/-- A word just written reads back, cut to its width (R55, R56). -/
theorem readWord_writeWord {m : Memory} (h : Memory.wf m) (a n : Nat) (v : Word32) :
    Memory.readWord (Memory.writeWord m a n v) a n = BitVec.ofNat 32 (v.toNat % 2 ^ (8 * n)) := by
  have : Memory.slice (Memory.writeWord m a n v) a n = bytesOfNat n v.toNat := by
    apply List.ext_getElem (by simp)
    intro i h1 h2
    have hi : i < n := by simpa using h1
    have hr := read_store h a (bytesOfNat n v.toNat) (i := i) (by simpa using hi)
    simp only [Memory.slice, List.getElem_map, List.getElem_range]
    rw [Memory.writeWord, hr]
    simp [List.getD, hi]
  rw [Memory.readWord, this, natOfBytes_bytesOfNat, show 256 = 2 ^ 8 by rfl, ← pow_mul]

end Sys2Proof.Machine
end

