-- ==== Sys2Proof/Laws/Decode.lean ====
section
/-!
SUPPORT. The fields of a BUSREQ (spec/30_encoding.md R82): each field of a packed request is what was packed, and a request is its
fields packed again.
-/

namespace Sys2Proof

theorem fieldWe_pack (we : Bool) (size : BitVec 2) (off : Offset) (wdata : Word32) :
    fieldWe (packBusreq we size off wdata) = we := by
  simp only [fieldWe, packBusreq, BitVec.getLsbD_append]; simp

theorem fieldSize_pack (we : Bool) (size : BitVec 2) (off : Offset) (wdata : Word32) :
    fieldSize (packBusreq we size off wdata) = size := by
  apply BitVec.eq_of_getLsbD_eq
  intro i hi
  simp only [fieldSize, packBusreq, BitVec.getLsbD_extractLsb', BitVec.getLsbD_append]
  simp [hi, show ¬ 50 + i < 32 by omega, show ¬ 50 + i - 32 < 18 by omega,
    show 50 + i - 32 - 18 = i by omega]

theorem fieldOff_pack (we : Bool) (size : BitVec 2) (off : Offset) (wdata : Word32) :
    fieldOff (packBusreq we size off wdata) = off := by
  apply BitVec.eq_of_getLsbD_eq
  intro i hi
  simp only [fieldOff, packBusreq, BitVec.getLsbD_extractLsb', BitVec.getLsbD_append]
  simp [hi]

theorem fieldWdata_pack (we : Bool) (size : BitVec 2) (off : Offset) (wdata : Word32) :
    fieldWdata (packBusreq we size off wdata) = wdata := by
  apply BitVec.eq_of_getLsbD_eq
  intro i hi
  simp only [fieldWdata, packBusreq, BitVec.getLsbD_extractLsb', BitVec.getLsbD_append]
  simp [hi]

/-- No bit of a BUSREQ stands outside its four fields. -/
theorem pack_fields (w : BitVec 53) : packBusreq (fieldWe w) (fieldSize w) (fieldOff w) (fieldWdata w) = w := by
  apply BitVec.eq_of_getLsbD_eq
  intro i hi
  simp only [packBusreq, BitVec.getLsbD_append, fieldWe, fieldSize, fieldOff, fieldWdata, BitVec.getLsbD_extractLsb',
    BitVec.getLsbD_ofBool]
  rcases lt_or_ge i 32 with h | h
  · simp [h]
  · rcases lt_or_ge i 50 with h' | h'
    · simp [show ¬ i < 32 by omega, show i - 32 < 18 by omega, show 32 + (i - 32) = i by omega]
    · rcases lt_or_ge i 52 with h'' | h''
      · simp [show ¬ i < 32 by omega, show ¬ i - 32 < 18 by omega, show i ≤ 51 by omega, show 50 + (i - 32 - 18) = i by omega]
      · have : i = 52 := by omega
        subst this; simp

/-- Decoding a packed request selects the row by SIZE and WE (R83). -/
theorem decodeBusreq_pack (we : Bool) (size : BitVec 2) (off : Offset) (wdata : Word32) :
    decodeBusreq (packBusreq we size off wdata) =
      if size = 0b00#2 then (if we then .ok (.wr8 off wdata) else .ok (.rd8 off))
      else if size = 0b01#2 then (if we then .ok (.wr16 off wdata) else .ok (.rd16 off))
      else if size = 0b10#2 then (if we then .ok (.wr32 off wdata) else .ok (.rd32 off))
      else .error (.reservedSize we) := by
  simp only [decodeBusreq, fieldWe_pack, fieldSize_pack, fieldOff_pack, fieldWdata_pack]

/-- The bytes of a word are its number again, when they are enough. -/
theorem natOfBytes_bytes {n : Nat} (k : Nat) (w : BitVec n) (h : n ≤ 8 * k) : natOfBytes (bytesOfNat k w.toNat) = w.toNat := by
  rw [Machine.natOfBytes_bytesOfNat, show 256 = 2 ^ 8 by rfl, ← pow_mul]
  exact Nat.mod_eq_of_lt (Nat.lt_of_lt_of_le w.isLt (Nat.pow_le_pow_right (by decide) h))

end Sys2Proof
end

