-- ==== Sys2Proof/Laws/State.lean ====
section
/-!
SUPPORT. One lemma per field per update of State and UnitState, each true by rfl, so that no proof unfolds a record
update; and the laws of the accessors of the active unit.
-/

namespace Sys2Proof.Machine

/-! ## setUnit, onUnit -/

@[simp] theorem setUnit_params (s : State) (u : UnitState) : (s.setUnit u).params = s.params := rfl
@[simp] theorem setUnit_units (s : State) (u : UnitState) : (s.setUnit u).units = s.units.set s.active u := rfl
@[simp] theorem setUnit_active (s : State) (u : UnitState) : (s.setUnit u).active = s.active := rfl
@[simp] theorem setUnit_master (s : State) (u : UnitState) : (s.setUnit u).master = s.master := rfl
@[simp] theorem setUnit_rdata (s : State) (u : UnitState) : (s.setUnit u).rdata = s.rdata := rfl
@[simp] theorem setUnit_draws (s : State) (u : UnitState) : (s.setUnit u).draws = s.draws := rfl
@[simp] theorem setUnit_hosts (s : State) (u : UnitState) : (s.setUnit u).hosts = s.hosts := rfl
@[simp] theorem setUnit_turns (s : State) (u : UnitState) : (s.setUnit u).turns = s.turns := rfl

theorem onUnit_eq (s : State) (f : UnitState → UnitState) : s.onUnit f = s.setUnit (f s.unit) := rfl

@[simp] theorem onUnit_params (s : State) (f : UnitState → UnitState) : (s.onUnit f).params = s.params := rfl
@[simp] theorem onUnit_units (s : State) (f : UnitState → UnitState) : (s.onUnit f).units = s.units.set s.active (f s.unit) := rfl
@[simp] theorem onUnit_active (s : State) (f : UnitState → UnitState) : (s.onUnit f).active = s.active := rfl
@[simp] theorem onUnit_master (s : State) (f : UnitState → UnitState) : (s.onUnit f).master = s.master := rfl
@[simp] theorem onUnit_rdata (s : State) (f : UnitState → UnitState) : (s.onUnit f).rdata = s.rdata := rfl
@[simp] theorem onUnit_draws (s : State) (f : UnitState → UnitState) : (s.onUnit f).draws = s.draws := rfl
@[simp] theorem onUnit_hosts (s : State) (f : UnitState → UnitState) : (s.onUnit f).hosts = s.hosts := rfl
@[simp] theorem onUnit_turns (s : State) (f : UnitState → UnitState) : (s.onUnit f).turns = s.turns := rfl

/-! ## respond, countDraw, resets -/

@[simp] theorem respond_params (s : State) (v : Word32) : (s.respond v).params = s.params := rfl
@[simp] theorem respond_units (s : State) (v : Word32) : (s.respond v).units = s.units := rfl
@[simp] theorem respond_active (s : State) (v : Word32) : (s.respond v).active = s.active := rfl
@[simp] theorem respond_master (s : State) (v : Word32) : (s.respond v).master = s.master := rfl
@[simp] theorem respond_rdata (s : State) (v : Word32) : (s.respond v).rdata = s.rdata ++ [⟨s.master, v⟩] := rfl
@[simp] theorem respond_draws (s : State) (v : Word32) : (s.respond v).draws = s.draws := rfl
@[simp] theorem respond_hosts (s : State) (v : Word32) : (s.respond v).hosts = s.hosts := rfl
@[simp] theorem respond_turns (s : State) (v : Word32) : (s.respond v).turns = s.turns := rfl
@[simp] theorem respond_unit (s : State) (v : Word32) : (s.respond v).unit = s.unit := rfl
@[simp] theorem respond_lastRdata (s : State) (v : Word32) : (s.respond v).lastRdata = v := by simp [State.lastRdata]

@[simp] theorem countDraw_params (s : State) : s.countDraw.params = s.params := rfl
@[simp] theorem countDraw_units (s : State) : s.countDraw.units = s.units := rfl
@[simp] theorem countDraw_active (s : State) : s.countDraw.active = s.active := rfl
@[simp] theorem countDraw_master (s : State) : s.countDraw.master = s.master := rfl
@[simp] theorem countDraw_rdata (s : State) : s.countDraw.rdata = s.rdata := rfl
@[simp] theorem countDraw_draws (s : State) : s.countDraw.draws = s.draws + 1 := rfl
@[simp] theorem countDraw_hosts (s : State) : s.countDraw.hosts = s.hosts := rfl
@[simp] theorem countDraw_turns (s : State) : s.countDraw.turns = s.turns := rfl
@[simp] theorem countDraw_unit (s : State) : s.countDraw.unit = s.unit := rfl

@[simp] theorem resetUnit_params (s : State) (u : Nat) : (s.resetUnit u).params = s.params := rfl
@[simp] theorem resetUnit_units (s : State) (u : Nat) : (s.resetUnit u).units = s.units.set u .reset := rfl
@[simp] theorem resetUnit_active (s : State) (u : Nat) : (s.resetUnit u).active = s.active := rfl
@[simp] theorem resetAll_params (s : State) : s.resetAll.params = s.params := rfl
@[simp] theorem resetAll_units (s : State) : s.resetAll.units = s.units.map fun _ => .reset := rfl
@[simp] theorem resetAll_active (s : State) : s.resetAll.active = s.active := rfl

/-! ## The active unit -/

theorem unit_setUnit {s : State} (h : s.live) (u : UnitState) : (s.setUnit u).unit = u := by
  simp [State.unit, State.setUnit, List.getD, List.getElem?_set_self h]

theorem unit_onUnit {s : State} (h : s.live) (f : UnitState → UnitState) : (s.onUnit f).unit = f s.unit := unit_setUnit h _

theorem setUnit_of_not_live {s : State} (h : ¬ s.live) (u : UnitState) : s.setUnit u = s := by
  have : s.units.set s.active u = s.units := List.set_eq_of_length_le (by omega)
  simp [State.setUnit, this]

theorem unit_of_not_live {s : State} (h : ¬ s.live) : s.unit = .reset := by
  simp [State.unit, List.getD, List.getElem?_eq_none (show s.units.length ≤ s.active by omega)]

theorem setUnit_unit (s : State) : s.setUnit s.unit = s := by
  by_cases h : s.live
  · have : s.units.set s.active s.unit = s.units := by
      apply List.ext_getElem? ; intro i
      by_cases hi : s.active = i
      · subst hi; simp [State.unit, List.getD, List.getElem?_eq_getElem h]
      · simp [List.getElem?_set_ne hi]
    simp [State.setUnit, this]
  · exact setUnit_of_not_live h _

@[simp] theorem setUnit_setUnit (s : State) (u v : UnitState) : (s.setUnit u).setUnit v = s.setUnit v := by
  simp [State.setUnit]

theorem onUnit_onUnit {s : State} (h : s.live) (f g : UnitState → UnitState) :
    (s.onUnit f).onUnit g = s.onUnit fun u => g (f u) := by
  simp [onUnit_eq, unit_setUnit h]

/-- Another unit is as it was (R20). -/
theorem setUnit_other (s : State) (u : UnitState) {v : Nat} (h : v ≠ s.active) : (s.setUnit u).units[v]? = s.units[v]? := by
  simp [List.getElem?_set_ne (Ne.symm h)]

theorem getElem?_unit {s : State} (h : s.live) : s.units[s.active]? = some s.unit := by
  simp [State.unit, List.getD, List.getElem?_eq_getElem h]

/-! ## Updates of a unit -/

@[simp] theorem flagAccErr_mem (u : UnitState) : u.flagAccErr.mem = u.mem := rfl
@[simp] theorem flagAccErr_status (u : UnitState) : u.flagAccErr.status = u.status.flagAccErr := rfl
@[simp] theorem flagAccErr_passLen (u : UnitState) : u.flagAccErr.passLen = u.passLen := rfl
@[simp] theorem flagAccErr_inLen (u : UnitState) : u.flagAccErr.inLen = u.inLen := rfl
@[simp] theorem flagAccErr_outLen (u : UnitState) : u.flagAccErr.outLen = u.outLen := rfl
@[simp] theorem flagAccErr_pendingCmd (u : UnitState) : u.flagAccErr.pendingCmd = u.pendingCmd := rfl
@[simp] theorem flagBusyViol_mem (u : UnitState) : u.flagBusyViol.mem = u.mem := rfl
@[simp] theorem flagBusyViol_status (u : UnitState) : u.flagBusyViol.status = u.status.flagBusyViol := rfl
@[simp] theorem flagBusyViol_passLen (u : UnitState) : u.flagBusyViol.passLen = u.passLen := rfl
@[simp] theorem flagBusyViol_inLen (u : UnitState) : u.flagBusyViol.inLen = u.inLen := rfl
@[simp] theorem flagBusyViol_outLen (u : UnitState) : u.flagBusyViol.outLen = u.outLen := rfl
@[simp] theorem flagBusyViol_pendingCmd (u : UnitState) : u.flagBusyViol.pendingCmd = u.pendingCmd := rfl
@[simp] theorem accept_mem (u : UnitState) (v : Word32) : (u.accept v).mem = u.mem := rfl
@[simp] theorem accept_status (u : UnitState) (v : Word32) : (u.accept v).status = u.status.accepted := rfl
@[simp] theorem accept_passLen (u : UnitState) (v : Word32) : (u.accept v).passLen = u.passLen := rfl
@[simp] theorem accept_inLen (u : UnitState) (v : Word32) : (u.accept v).inLen = u.inLen := rfl
@[simp] theorem accept_outLen (u : UnitState) (v : Word32) : (u.accept v).outLen = u.outLen := rfl
@[simp] theorem accept_pendingCmd (u : UnitState) (v : Word32) : (u.accept v).pendingCmd = v := rfl

@[simp] theorem loadKey_mem (u : UnitState) : u.loadKey.mem = u.mem := rfl
@[simp] theorem loadKey_status (u : UnitState) : u.loadKey.status = u.status := rfl
@[simp] theorem loadKey_passLen (u : UnitState) : u.loadKey.passLen = u.passLen := rfl
@[simp] theorem loadKey_inLen (u : UnitState) : u.loadKey.inLen = u.inLen := rfl
@[simp] theorem loadKey_outLen (u : UnitState) : u.loadKey.outLen = u.outLen := rfl
@[simp] theorem loadKey_keyReg (u : UnitState) : u.loadKey.keyReg = u.key := rfl
@[simp] theorem loadKey_roundKeys (u : UnitState) : u.loadKey.roundKeys = keyExpansion u.key := rfl
@[simp] theorem loadKey_inBytes (u : UnitState) : u.loadKey.inBytes = u.inBytes := rfl

@[simp] theorem finishOk_status (p : Params) (r : List Byte) (u : UnitState) : (u.finishOk p r).status = u.status.succeeded := rfl
@[simp] theorem finishOk_passLen (p : Params) (r : List Byte) (u : UnitState) : (u.finishOk p r).passLen = u.passLen := rfl
@[simp] theorem finishOk_inLen (p : Params) (r : List Byte) (u : UnitState) : (u.finishOk p r).inLen = u.inLen := rfl
@[simp] theorem finishOk_outLen (p : Params) (r : List Byte) (u : UnitState) :
    (u.finishOk p r).outLen = BitVec.ofNat 32 r.length := rfl
@[simp] theorem finishOk_mem (p : Params) (r : List Byte) (u : UnitState) :
    (u.finishOk p r).mem = Memory.store (Memory.clear u.mem outBase (outBase + p.outCap)) outBase r := rfl
@[simp] theorem raiseCmdError_status (p : Params) (e : CmdError) (u : UnitState) :
    (u.raiseCmdError p e).status = u.status.failed e := rfl
@[simp] theorem raiseCmdError_passLen (p : Params) (e : CmdError) (u : UnitState) : (u.raiseCmdError p e).passLen = u.passLen := rfl
@[simp] theorem raiseCmdError_inLen (p : Params) (e : CmdError) (u : UnitState) : (u.raiseCmdError p e).inLen = u.inLen := rfl
@[simp] theorem raiseCmdError_outLen (p : Params) (e : CmdError) (u : UnitState) : (u.raiseCmdError p e).outLen = 0 := rfl
@[simp] theorem raiseCmdError_mem (p : Params) (e : CmdError) (u : UnitState) :
    (u.raiseCmdError p e).mem = Memory.clear u.mem outBase (outBase + p.outCap) := rfl

@[simp] theorem scrub_status (u : UnitState) : u.scrub.status = u.status := rfl
@[simp] theorem scrub_passLen (u : UnitState) : u.scrub.passLen = u.passLen := rfl
@[simp] theorem scrub_inLen (u : UnitState) : u.scrub.inLen = u.inLen := rfl
@[simp] theorem scrub_outLen (u : UnitState) : u.scrub.outLen = u.outLen := rfl
@[simp] theorem scrub_mem (u : UnitState) : u.scrub.mem = u.mem := rfl
@[simp] theorem scrub_pendingCmd (u : UnitState) : u.scrub.pendingCmd = 0 := rfl
@[simp] theorem scrub_keyReg (u : UnitState) : u.scrub.keyReg = List.replicate 32 0 := rfl
@[simp] theorem scrub_roundKeys (u : UnitState) : u.scrub.roundKeys = List.replicate 60 .zero := rfl
@[simp] theorem scrub_chainReg (u : UnitState) : u.scrub.chainReg = .zero := rfl
@[simp] theorem scrub_cipherState (u : UnitState) : u.scrub.cipherState = .zero := rfl

@[simp] theorem clearInputs_status (p : Params) (u : UnitState) : (u.clearInputs p).status = u.status := rfl
@[simp] theorem clearInputs_passLen (p : Params) (u : UnitState) : (u.clearInputs p).passLen = 0 := rfl
@[simp] theorem clearInputs_inLen (p : Params) (u : UnitState) : (u.clearInputs p).inLen = 0 := rfl
@[simp] theorem clearInputs_mem (p : Params) (u : UnitState) : (u.clearInputs p).mem =
    Memory.clear (Memory.clear u.mem passBase (passBase + 32)) inBase (inBase + p.maxIn) := rfl

/-- The scrub hides what the key loading wrote, so a completion is a function of the architectural state (R42, R206). -/
@[simp] theorem scrub_finishOk_loadKey (p : Params) (r : List Byte) (u : UnitState) :
    (u.loadKey.finishOk p r).scrub = (u.finishOk p r).scrub := rfl
@[simp] theorem scrub_raise_loadKey (p : Params) (e : CmdError) (u : UnitState) :
    (u.loadKey.raiseCmdError p e).scrub = (u.raiseCmdError p e).scrub := rfl

end Sys2Proof.Machine
end

