-- ==== Sys2Proof/Laws/Ops.lean ====
section
/-!
SUPPORT. One lemma per shared operation that says everything it can do: the regions, MemRead, MemWrite, the two endings of a
completion; and that each keeps the invariant of a unit.
-/

namespace Sys2Proof.Machine

/-! ## Regions -/

/-- The places of the three buffers as numerals (R51). -/
theorem bases : passBase = 32 ∧ inBase = 65536 ∧ outBase = 131072 := ⟨rfl, rfl, rfl⟩

/-- The register offsets as numerals (R21). -/
theorem offsets : offId = 0 ∧ offCaps = 4 ∧ offCmd = 8 ∧ offStatus = 12 ∧ offPassLen = 16 ∧ offInLen = 20 ∧ offOutLen = 24 :=
  ⟨rfl, rfl, rfl, rfl, rfl, rfl, rfl⟩

/-- The parts of `Params.wf`. -/
theorem params_wf_bounds {p : Params} (h : p.wf = true) :
    16 ≤ p.maxIn ∧ p.maxIn ≤ 65520 ∧ p.maxIn % 16 = 0 ∧ 1 ≤ p.nUnits ∧ allDisjoint p.unitBase = true := by
  simpa [Params.wf, and_assoc] using h

theorem region_eq_pass {p : Params} {off : Nat} : region p off = .pass ↔ 0x20 ≤ off ∧ off ≤ 0x3F := by
  unfold region; split_ifs <;> simp <;> omega

theorem region_eq_reg {p : Params} {off : Nat} : region p off = .reg ↔ off < 0x1C := by
  unfold region; split_ifs <;> simp <;> omega

theorem region_eq_out {p : Params} {off : Nat} (hp : p.maxIn ≤ 65520) :
    region p off = .out ↔ outBase ≤ off ∧ off < outBase + p.outCap := by
  have hb := bases
  have hc : p.outCap = p.maxIn + 16 := rfl
  unfold region; split_ifs <;> simp only [true_iff, false_iff] <;> omega

theorem region_eq_inp {p : Params} {off : Nat} : region p off = .inp ↔ inBase ≤ off ∧ off < inBase + p.maxIn := by
  have hb := bases
  unfold region; split_ifs <;> simp only [true_iff, false_iff] <;> omega

/-- OUT_BUF ends where its region does, for any parameters. -/
theorem region_out_bounds {p : Params} {off : Nat} (h : region p off = .out) : outBase ≤ off ∧ off < outBase + p.outCap := by
  have hb := bases
  unfold region at h; split_ifs at h; omega

/-! ## MemRead and MemWrite (R60) -/

/-- What MemRead does: it answers 0 and sets ACC_ERR, or answers a draw, or answers a value; nothing else changes. -/
theorem memRead_cases (off : Nat) (w : Width) (s : State) :
    (malformed s.params off w false = true ∧ memRead off w s = (s.onUnit .flagAccErr).respond 0) ∨
    (malformed s.params off w false = false ∧ s.unit.status.busy = true ∧
      ∃ v, memRead off w s = (s.respond v).countDraw) ∨
    (malformed s.params off w false = false ∧ ∃ v, memRead off w s = s.respond v) := by
  unfold memRead
  split_ifs with h1 h2 h3 h4
  · exact .inl ⟨h1, rfl⟩
  · exact .inr (.inl ⟨by simpa using h1, h3.2, _, rfl⟩)
  · exact .inr (.inr ⟨by simpa using h1, _, rfl⟩)
  · exact .inr (.inl ⟨by simpa using h1, h4.2, _, rfl⟩)
  · exact .inr (.inr ⟨by simpa using h1, _, rfl⟩)

/-- What MemWrite does to the addressed unit: one of the two flags, a STATUS clear, an acceptance, a length, or a store to
PASS or IN while idle. -/
theorem unit_memWrite_cases (p : Params) (off : Nat) (w : Width) (v : Word32) (u : UnitState) :
    (malformed p off w true = true ∧ u.memWrite p off w v = u.flagAccErr) ∨
    (malformed p off w true = false ∧ off = offStatus ∧ u.memWrite p off w v = { u with status := u.status.clearSticky v }) ∨
    (malformed p off w true = false ∧ off ≠ offStatus ∧ u.status.busy = true ∧ u.memWrite p off w v = u.flagBusyViol) ∨
    (malformed p off w true = false ∧ off = offCmd ∧ u.status.busy = false ∧ u.memWrite p off w v = u.accept v) ∨
    (malformed p off w true = false ∧ off = offPassLen ∧ u.status.busy = false ∧ u.memWrite p off w v = { u with passLen := v }) ∨
    (malformed p off w true = false ∧ off = offInLen ∧ u.status.busy = false ∧ u.memWrite p off w v = { u with inLen := v }) ∨
    (malformed p off w true = false ∧ (region p off = .pass ∨ region p off = .inp) ∧ u.status.busy = false ∧
      u.memWrite p off w v = { u with mem := Memory.writeWord u.mem off w.bytes v }) := by
  unfold UnitState.memWrite
  split_ifs with h1 h2 h3 h4 h5 h6
  · exact .inl ⟨h1, rfl⟩
  all_goals have h1 : malformed p off w true = false := by simpa using h1
  · exact .inr (.inl ⟨h1, h2, rfl⟩)
  · exact .inr (.inr (.inl ⟨h1, h2, h3, rfl⟩))
  all_goals have h3 : u.status.busy = false := by simpa using h3
  · exact .inr (.inr (.inr (.inl ⟨h1, h4, h3, rfl⟩)))
  · exact .inr (.inr (.inr (.inr (.inl ⟨h1, h5, h3, rfl⟩))))
  · exact .inr (.inr (.inr (.inr (.inr (.inl ⟨h1, h6, h3, rfl⟩)))))
  · refine .inr (.inr (.inr (.inr (.inr (.inr ⟨h1, ?_, h3, rfl⟩)))))
    -- a well-formed write to a register offset is aligned and 4 bytes wide, and every such register is named above
    simp only [malformed, readOnly, Bool.or_eq_false_iff, decide_eq_false_iff_not, Bool.and_eq_false_iff,
      Bool.true_and] at h1
    obtain ⟨⟨⟨hal, hun⟩, hreg⟩, ⟨⟨h0, h4'⟩, h18⟩, hout⟩ := h1
    rcases hr : region p off with _ | _ | _ | _ | _
    · have hlt := region_eq_reg.mp hr
      have hw : w = .b4 := by
        rcases hreg with hreg | hreg
        · exact absurd hr hreg
        · simpa using hreg
      subst hw
      simp only [Width.bytes] at hal
      simp only [offId, offCaps, offOutLen, offStatus, offCmd, offPassLen, offInLen] at *
      omega
    · exact .inl rfl
    · exact .inr rfl
    · exact absurd hr hout
    · exact absurd hr hun

/-- An aligned store to PASS or IN stays in its region. -/
theorem region_add {p : Params} {off : Nat} {w : Width} {i : Nat} (hp : p.maxIn % 16 = 0) (hal : off % w.bytes = 0)
    (hi : i < w.bytes) (hr : region p off = .pass ∨ region p off = .inp) :
    region p (off + i) = .pass ∨ region p (off + i) = .inp := by
  have hb := bases
  rw [region_eq_pass, region_eq_inp] at hr ⊢
  cases w <;> simp only [Width.bytes] at hal hi <;> omega

theorem malformed_aligned {p : Params} {off : Nat} {w : Width} {we : Bool} (h : malformed p off w we = false) :
    off % w.bytes = 0 := by
  simp only [malformed, Bool.or_eq_false_iff, decide_eq_false_iff_not] at h
  exact not_not.mp h.1.1.1

/-! ## Well-formed accesses, by what they reach -/

/-- A well-formed register read that is no draw answers the register (R57). -/
theorem memRead_reg {s : State} {off : Nat} (h : off < 0x1C) (hal : off % 4 = 0)
    (hol : off = offOutLen → s.unit.status.busy = false) : memRead off .b4 s = s.respond (regValue s.params s.unit off) := by
  have hr := region_eq_reg (p := s.params).mpr h
  have hm : malformed s.params off .b4 false = false := by simp [malformed, hr, Width.bytes, hal]
  unfold memRead
  rw [if_neg (by simp [hm]), if_pos hr, if_neg (fun hx => by simp [hol hx.1] at hx)]

/-- A well-formed buffer read that is no draw answers the bytes (R55). -/
theorem memRead_buffer {s : State} {off : Nat} {w : Width} (hal : off % w.bytes = 0)
    (h : region s.params off = .pass ∨ region s.params off = .inp ∨ (region s.params off = .out ∧ s.unit.status.busy = false)) :
    memRead off w s = s.respond (Memory.readWord s.unit.mem off w.bytes) := by
  have hm : malformed s.params off w false = false := by rcases h with h | h | ⟨h, -⟩ <;> simp [malformed, h, hal]
  unfold memRead
  rw [if_neg (by simp [hm]), if_neg (by rcases h with h | h | ⟨h, -⟩ <;> simp [h]),
    if_neg (by rcases h with h | h | ⟨h, h'⟩ <;> simp [*])]

/-- A well-formed read of OUT while busy is a draw (R59). -/
theorem memRead_out_busy {s : State} {off : Nat} {w : Width} (hal : off % w.bytes = 0) (hr : region s.params off = .out)
    (hb : s.unit.status.busy = true) : memRead off w s = (s.respond (drawWord w s.draws)).countDraw := by
  have hm : malformed s.params off w false = false := by simp [malformed, hr, hal]
  unfold memRead
  rw [if_neg (by simp [hm]), if_neg (by simp [hr]), if_pos ⟨hr, hb⟩]

/-- The registers a 4-byte write may name are well-formed targets (R57). -/
theorem wellformed_reg_write (p : Params) {off : Nat}
    (h : off = offCmd ∨ off = offStatus ∨ off = offPassLen ∨ off = offInLen) : malformed p off .b4 true = false := by
  simp only [offCmd, offStatus, offPassLen, offInLen] at h
  rcases h with rfl | rfl | rfl | rfl <;> simp [malformed, region, readOnly, Width.bytes]

/-- An aligned write to PASS or IN is well-formed (R54). -/
theorem wellformed_buffer_write {p : Params} {off : Nat} {w : Width} (hal : off % w.bytes = 0)
    (h : region p off = .pass ∨ region p off = .inp) : malformed p off w true = false ∧ 0x20 ≤ off := by
  have hb := bases
  have ho := offsets
  have hn : 0x20 ≤ off := by
    rcases h with h | h
    · exact (region_eq_pass.mp h).1
    · have := region_eq_inp.mp h; omega
  refine ⟨?_, hn⟩
  rcases h with h | h <;> simp [malformed, h, hal, readOnly] <;> omega

/-- An aligned write to PASS or IN while idle stores the datum (R56). -/
theorem memWrite_buffer {s : State} {off : Nat} {w : Width} (v : Word32) (hal : off % w.bytes = 0)
    (h : region s.params off = .pass ∨ region s.params off = .inp) (hb : s.unit.status.busy = false) :
    memWrite off w v s = s.setUnit { s.unit with mem := Memory.writeWord s.unit.mem off w.bytes v } := by
  obtain ⟨hm, hn⟩ := wellformed_buffer_write hal h
  have ho := offsets
  rw [memWrite, onUnit_eq]
  rcases unit_memWrite_cases s.params off w v s.unit with ⟨h', -⟩ | ⟨-, h', -⟩ | ⟨-, -, h', -⟩ | ⟨-, h', -⟩ | ⟨-, h', -⟩ |
    ⟨-, h', -⟩ | ⟨-, -, -, e⟩
  · simp [hm] at h'
  · omega
  · simp [hb] at h'
  · omega
  · omega
  · omega
  · rw [e]

/-! ## The endings of a completion (R203, R221, R206) -/

/-- finish_ok(r) and the scrub leave what R203 and R206 say. -/
theorem finishOk_ended {p : Params} {u : UnitState} {r : List Byte} (hm : Memory.wf u.mem) (hr : r.length ≤ p.outCap)
    (hp : p.maxIn ≤ 65520) : endedOk p u (u.finishOk p r).scrub r := by
  have hc : p.outCap ≤ 65536 := by unfold Params.outCap; omega
  refine ⟨⟨?_, fun i hi => ?_⟩, ⟨rfl, rfl, fun off hoff => ?_⟩, ⟨rfl, rfl, rfl, rfl, rfl⟩, rfl⟩
  · simp only [scrub_outLen, finishOk_outLen, BitVec.toNat_ofNat]; omega
  · simp only [scrub_mem, finishOk_mem]
    by_cases h : i < r.length
    · exact read_store (clear_wf hm _ _) _ _ h
    · rw [read_store_other (by omega), read_clear_inside (by omega) (by omega)]
      simp [List.getD, List.getElem?_eq_none (Nat.le_of_not_lt h)]
  · simp only [scrub_mem, finishOk_mem]
    rw [read_store_other (by omega), read_clear_outside hoff]

/-- raise CmdError and the scrub leave what R221 and R206 say. -/
theorem raise_ended (p : Params) (u : UnitState) (e : CmdError) : endedErr p u (u.raiseCmdError p e).scrub e.code := by
  refine ⟨⟨rfl, fun i hi => ?_⟩, ⟨rfl, rfl, fun off hoff => ?_⟩, ⟨rfl, rfl, rfl, rfl, rfl⟩, rfl⟩
  · exact read_clear_inside (by omega) (by omega)
  · exact read_clear_outside hoff

/-- The frame of a success needs no canonical form: only OUT_BUF is written. -/
theorem finishOk_keeps_inputs {p : Params} (u : UnitState) {r : List Byte} (hr : r.length ≤ p.outCap) :
    inputsKept p u (u.finishOk p r).scrub := by
  refine ⟨rfl, rfl, fun off hoff => ?_⟩
  simp only [scrub_mem, finishOk_mem]
  rw [read_store_other (by omega), read_clear_outside hoff]

/-! ## The invariant of a unit -/

theorem status_reset_inv : Status.reset.inv := by decide

theorem unit_reset_inv (p : Params) : UnitState.reset.inv p :=
  ⟨⟨List.Pairwise.nil, by simp [UnitState.reset]⟩, by simp [UnitState.reset], status_reset_inv, Nat.zero_le _,
    by simp [UnitState.reset], fun h => by simp [UnitState.reset, Status.reset] at h, fun _ => rfl, rfl, rfl, rfl, rfl⟩

theorem code_bounds (e : CmdError) : e.code ≠ 0 ∧ e.code.toNat ≤ 5 := by cases e <;> decide

/-- Both endings keep the invariant. -/
theorem finishOk_inv {p : Params} {u : UnitState} {r : List Byte} (h : u.inv p) (hr : r.length ≤ p.outCap)
    (hp : p.maxIn ≤ 65520) : ((u.finishOk p r).scrub).inv p := by
  have hb := bases
  obtain ⟨hwf, hbuf, -, -, -, -, -, -⟩ := h
  have hc : p.outCap ≤ 65536 := by unfold Params.outCap; omega
  have hlen : (BitVec.ofNat 32 r.length).toNat = r.length := by rw [BitVec.toNat_ofNat]; omega
  refine ⟨store_wf (clear_wf hwf _ _) _ _, fun c hc => ?_, ?_, ?_, fun c hc ho => ?_, fun _ hv => ?_, fun _ => rfl, rfl, rfl, rfl, rfl⟩
  · rcases mem_store hc with hc | hc
    · exact hbuf c (mem_clear.mp hc).1
    · exact .inr (.inr ((region_eq_out hp).mpr ⟨hc.1, by omega⟩))
  · simp [Status.inv, Status.succeeded]
  · simp only [scrub_outLen, finishOk_outLen, hlen]; exact hr
  · simp only [scrub_outLen, finishOk_outLen, hlen]
    rcases mem_store hc with hc | hc
    · have h1 := region_out_bounds (p := p) (off := c.1)
      have h2 := mem_clear.mp hc
      rcases hbuf c h2.1 with h | h | h
      · have := region_eq_pass.mp h; omega
      · have := region_eq_inp.mp h; omega
      · have := h1 h; omega
    · exact hc.2
  · simp [Status.succeeded] at hv

theorem raise_inv {p : Params} {u : UnitState} (e : CmdError) (h : u.inv p) (hp : p.maxIn ≤ 65520) :
    ((u.raiseCmdError p e).scrub).inv p := by
  have hb := bases
  obtain ⟨hwf, hbuf, -, -, -, -, -, -⟩ := h
  have hcode := code_bounds e
  refine ⟨clear_wf hwf _ _, fun c hc => hbuf c (mem_clear.mp hc).1, ?_, Nat.zero_le _, fun c hc ho => ?_, fun _ _ => rfl,
    fun _ => rfl, rfl, rfl, rfl, rfl⟩
  · simpa [Status.inv, Status.failed, hcode.2] using hcode.1
  · have h2 := mem_clear.mp hc
    rcases hbuf c h2.1 with h | h | h
    · have := region_eq_pass.mp h; omega
    · have := region_eq_inp.mp h; omega
    · have := region_out_bounds h; omega

/-- MemWrite keeps the invariant. -/
theorem unit_memWrite_inv {p : Params} {u : UnitState} (off : Nat) (w : Width) (v : Word32) (h : u.inv p)
    (hp : p.maxIn % 16 = 0) (hp' : p.maxIn ≤ 65520) : (u.memWrite p off w v).inv p := by
  have hb := bases
  obtain ⟨hwf, hbuf, hst, hol, hout, hfail, hpend, hscr⟩ := h
  rcases unit_memWrite_cases p off w v u with ⟨-, e⟩ | ⟨-, -, e⟩ | ⟨-, -, -, e⟩ | ⟨-, -, hb, e⟩ | ⟨-, -, -, e⟩ | ⟨-, -, -, e⟩ |
    ⟨hmal, hr, -, e⟩ <;> rw [e]
  · exact ⟨hwf, hbuf, hst, hol, hout, hfail, hpend, hscr⟩
  · exact ⟨hwf, hbuf, hst, hol, hout, hfail, hpend, hscr⟩
  · exact ⟨hwf, hbuf, hst, hol, hout, hfail, hpend, hscr⟩
  · refine ⟨hwf, hbuf, ?_, hol, hout, fun hd => ?_, fun hb => ?_, hscr⟩
    · simp [Status.inv, Status.accepted]
    · simp [Status.accepted] at hd
    · simp [Status.accepted] at hb
  · exact ⟨hwf, hbuf, hst, hol, hout, hfail, hpend, hscr⟩
  · exact ⟨hwf, hbuf, hst, hol, hout, hfail, hpend, hscr⟩
  · have hadd : ∀ c : Host.Cell, off ≤ c.1 → c.1 < off + (bytesOfNat w.bytes v.toNat).length →
        region p c.1 = .pass ∨ region p c.1 = .inp := by
      intro c h1 h2
      have := region_add (i := c.1 - off) hp (malformed_aligned hmal) (by simp at h2; omega) hr
      rwa [show off + (c.1 - off) = c.1 by omega] at this
    refine ⟨writeWord_wf hwf _ _ _, fun c hc => ?_, hst, hol, fun c hc ho => ?_, hfail, hpend, hscr⟩
    · rcases mem_store hc with hc | hc
      · exact hbuf c hc
      · rcases hadd c hc.1 hc.2 with h | h
        · exact .inl h
        · exact .inr (.inl h)
    · rcases mem_store hc with hc | hc
      · exact hout c hc ho
      · rcases hadd c hc.1 hc.2 with h | h
        · have := region_eq_pass.mp h; omega
        · have := region_eq_inp.mp h; omega

theorem flagAccErr_inv {p : Params} {u : UnitState} (h : u.inv p) : u.flagAccErr.inv p := h

end Sys2Proof.Machine
end

