-- ==== Sys2Proof/Laws/Exec.lean ====
section
/-!
SUPPORT. What every meaning does, said once: each command as an ending of the active unit, and the shape of every next state.
-/

namespace Sys2Proof.Machine

/-! ## The endings of the active unit -/

/-- The active unit after finish_ok(r) and the scrub. -/
abbrev endOk (s : State) (r : List Byte) : UnitState := (s.unit.finishOk s.params r).scrub

/-- The active unit after raise CmdError and the scrub. -/
abbrev endErr (s : State) (e : CmdError) : UnitState := (s.unit.raiseCmdError s.params e).scrub

theorem succeed_eq (s : State) (r : List Byte) : s.succeed r = s.setUnit (endOk s r) := rfl

theorem fail_eq (s : State) (e : CmdError) : s.fail e = s.setUnit (endErr s e) := rfl

/-- Whatever was put in the active unit before is overwritten; when there is no active unit nothing is ever put. -/
theorem setUnit_onUnit (s : State) (f : UnitState → UnitState) (u : UnitState) : (s.onUnit f).setUnit u = s.setUnit u :=
  setUnit_setUnit s _ u

/-- The ciphertext of R163. -/
abbrev ciphertext (u : UnitState) : List Byte := cbcEnc u.key iv0 (pad u.inBytes)

/-- ENCRYPT past its checks is finish_ok of the ciphertext. -/
theorem encryptInput_eq (s : State) : encryptInput s = s.setUnit (endOk s (ciphertext s.unit)) := by
  by_cases h : s.live
  · simp only [encryptInput, succeed_eq, endOk, unit_onUnit h, loadKey_roundKeys, loadKey_inBytes, onUnit_params,
      scrub_finishOk_loadKey, setUnit_onUnit]
    rfl
  · rw [setUnit_of_not_live h, encryptInput, succeed_eq, setUnit_onUnit, setUnit_of_not_live h]

/-- DERIVE_KEY is finish_ok of the key. -/
theorem execDeriveKey_eq (s : State) : execDeriveKey s = .next (s.setUnit (endOk s s.unit.key)) := by
  by_cases h : s.live
  · simp only [execDeriveKey, succeed_eq, endOk, unit_onUnit h, loadKey_keyReg, onUnit_params, scrub_finishOk_loadKey,
      setUnit_onUnit]
  · rw [setUnit_of_not_live h, execDeriveKey]
    simp only [succeed_eq, setUnit_onUnit, setUnit_of_not_live h]

/-- What DECRYPT unpads (R182). -/
abbrev decrypted (u : UnitState) : List Byte := cbcDec u.key iv0 u.inBytes

/-- DECRYPT past its length checks, when there is an active unit. -/
theorem decryptInput_eq {s : State} (h : s.live) : decryptInput s =
    s.setUnit (match unpad (decrypted s.unit) with | some r => endOk s r | none => endErr s .paddingValidationFailure) := by
  simp only [decryptInput, unit_onUnit h, loadKey_roundKeys, loadKey_inBytes, decrypted, cbcDec]
  cases unpad (cbcDecWith (keyExpansion s.unit.key) iv0 s.unit.inBytes) with
  | some r => simp only [succeed_eq, endOk, unit_onUnit h, onUnit_params, scrub_finishOk_loadKey, setUnit_onUnit]
  | none => simp only [fail_eq, endErr, unit_onUnit h, onUnit_params, scrub_raise_loadKey, setUnit_onUnit]

/-- ZEROIZE clears the inputs and ends in finish_ok of nothing. -/
theorem execZeroize_eq (s : State) :
    execZeroize s = .next (s.setUnit (((s.unit.clearInputs s.params).finishOk s.params []).scrub)) := by
  by_cases h : s.live
  · simp only [execZeroize, succeed_eq, endOk, unit_onUnit h, onUnit_params, setUnit_onUnit]
  · rw [setUnit_of_not_live h, execZeroize]
    simp only [succeed_eq, setUnit_onUnit, setUnit_of_not_live h]

/-- ENCRYPT ends in one of its three ways (R163). -/
theorem execEncrypt_cases (s : State) :
    (s.params.maxIn < s.unit.inLen.toNat ∧ execEncrypt s = .next (s.setUnit (endErr s .lengthExceeded))) ∨
    (s.unit.inLen.toNat ≤ s.params.maxIn ∧ s.params.cipherFaultPossible = true ∧ Config.freeFault s.draws = true ∧
      execEncrypt s = .next (s.setUnit (endErr s .cipherFailure)).countDraw) ∨
    (s.unit.inLen.toNat ≤ s.params.maxIn ∧ s.params.cipherFaultPossible = true ∧ Config.freeFault s.draws = false ∧
      execEncrypt s = .next (s.setUnit (endOk s (ciphertext s.unit))).countDraw) ∨
    (s.unit.inLen.toNat ≤ s.params.maxIn ∧ s.params.cipherFaultPossible = false ∧
      execEncrypt s = .next (s.setUnit (endOk s (ciphertext s.unit)))) := by
  unfold execEncrypt
  split_ifs with h1 h2 h3
  · exact .inl ⟨h1, rfl⟩
  · exact .inr (.inl ⟨by omega, h2, h3, rfl⟩)
  · exact .inr (.inr (.inl ⟨by omega, h2, by simpa using h3, by rw [encryptInput_eq]; rfl⟩))
  · exact .inr (.inr (.inr ⟨by omega, by simpa using h2, by rw [encryptInput_eq]⟩))

/-- DECRYPT ends in one of its four ways, in the order of R224. -/
theorem execDecrypt_cases (s : State) :
    ((s.unit.inLen.toNat = 0 ∨ s.unit.inLen.toNat % 16 ≠ 0) ∧
      execDecrypt s = .next (s.setUnit (endErr s .invalidCiphertextLength))) ∨
    (0 < s.unit.inLen.toNat ∧ s.unit.inLen.toNat % 16 = 0 ∧ s.params.maxIn < s.unit.inLen.toNat ∧
      execDecrypt s = .next (s.setUnit (endErr s .lengthExceeded))) ∨
    (0 < s.unit.inLen.toNat ∧ s.unit.inLen.toNat % 16 = 0 ∧ s.unit.inLen.toNat ≤ s.params.maxIn ∧
      ((∃ r, unpad (decrypted s.unit) = some r ∧ execDecrypt s = .next (s.setUnit (endOk s r))) ∨
       (unpad (decrypted s.unit) = none ∧ execDecrypt s = .next (s.setUnit (endErr s .paddingValidationFailure))))) := by
  unfold execDecrypt
  split_ifs with h1 h2
  · exact .inl ⟨h1, rfl⟩
  · exact .inr (.inl ⟨by omega, by omega, h2, rfl⟩)
  · have hl : s.live := by
      by_contra h
      exact h1 (.inl (by rw [unit_of_not_live h]; rfl))
    refine .inr (.inr ⟨by omega, by omega, by omega, ?_⟩)
    rw [decryptInput_eq hl]
    cases hu : unpad (decrypted s.unit) with
    | some r => exact .inl ⟨r, rfl, rfl⟩
    | none => exact .inr ⟨rfl, rfl⟩

/-! ## The shape of every next state -/

/-- A meaning changes the active unit, may answer its master and may count a draw, and changes nothing else. -/
abbrev Shaped (s t : State) : Prop :=
  ∃ u rs n, t = { s.setUnit u with rdata := s.rdata ++ rs, draws := s.draws + n }

theorem shaped_setUnit (s : State) (u : UnitState) : Shaped s (s.setUnit u) := ⟨u, [], 0, by simp [State.setUnit]⟩

theorem shaped_respond (s : State) (v : Word32) : Shaped s (s.respond v) :=
  ⟨s.unit, [⟨s.master, v⟩], 0, by rw [setUnit_unit]; rfl⟩

theorem shaped_memRead (off : Nat) (w : Width) (s : State) : Shaped s (memRead off w s) := by
  rcases memRead_cases off w s with ⟨-, h⟩ | ⟨-, -, v, h⟩ | ⟨-, v, h⟩ <;> rw [h]
  · exact ⟨s.unit.flagAccErr, [⟨s.master, 0⟩], 0, rfl⟩
  · exact ⟨s.unit, [⟨s.master, v⟩], 1, by rw [setUnit_unit]; rfl⟩
  · exact shaped_respond s v

/-- Every instruction answers a next state, of that shape (R235). -/
theorem exec_shaped (i : Instr) (s : State) : ∃ t, exec i s = .next t ∧ Shaped s t := by
  cases i with
  | encrypt =>
    rcases execEncrypt_cases s with ⟨-, h⟩ | ⟨-, -, -, h⟩ | ⟨-, -, -, h⟩ | ⟨-, -, h⟩
    · exact ⟨_, h, shaped_setUnit _ _⟩
    · exact ⟨_, h, endErr s .cipherFailure, [], 1, by simp [State.countDraw, State.setUnit]⟩
    · exact ⟨_, h, endOk s (ciphertext s.unit), [], 1, by simp [State.countDraw, State.setUnit]⟩
    · exact ⟨_, h, shaped_setUnit _ _⟩
  | decrypt =>
    rcases execDecrypt_cases s with ⟨-, h⟩ | ⟨-, -, -, h⟩ | ⟨-, -, -, ⟨r, -, h⟩ | ⟨-, h⟩⟩ <;> exact ⟨_, h, shaped_setUnit _ _⟩
  | deriveKey => exact ⟨_, execDeriveKey_eq s, shaped_setUnit _ _⟩
  | zeroize => exact ⟨_, execZeroize_eq s, shaped_setUnit _ _⟩
  | rd8 off => exact ⟨_, rfl, shaped_memRead _ _ _⟩
  | rd16 off => exact ⟨_, rfl, shaped_memRead _ _ _⟩
  | rd32 off => exact ⟨_, rfl, shaped_memRead _ _ _⟩
  | wr8 off v => exact ⟨_, rfl, shaped_setUnit _ _⟩
  | wr16 off v => exact ⟨_, rfl, shaped_setUnit _ _⟩
  | wr32 off v => exact ⟨_, rfl, shaped_setUnit _ _⟩

/-- An ENCRYPT that leaves VALID set ran within its capacity, on a unit that is there, and left the ciphertext. -/
theorem encrypt_valid {s t : State} (h : exec .encrypt s = .next t) (hv : t.unit.status.valid = true) :
    s.live ∧ s.unit.inLen.toNat ≤ s.params.maxIn ∧ t.unit = endOk s (ciphertext s.unit) := by
  by_cases hl : s.live
  · refine ⟨hl, ?_⟩
    rcases execEncrypt_cases s with ⟨-, h'⟩ | ⟨-, -, -, h'⟩ | ⟨hle, -, -, h'⟩ | ⟨hle, -, h'⟩ <;>
      injection h'.symm.trans h with h <;> subst h <;> simp only [countDraw_unit, unit_setUnit hl] at hv ⊢
    · cases hv
    · cases hv
    · exact ⟨hle, trivial⟩
    · exact ⟨hle, trivial⟩
  · obtain ⟨t', h', u, rs, n, rfl⟩ := exec_shaped .encrypt s
    injection h'.symm.trans h with h
    rw [setUnit_of_not_live hl] at h
    have : t.unit = .reset := by rw [← h]; exact unit_of_not_live hl
    rw [this] at hv
    cases hv

/-! ## The active unit keeps its invariant -/

theorem clearInputs_inv {p : Params} {u : UnitState} (h : u.inv p) : (u.clearInputs p).inv p := by
  obtain ⟨hwf, hbuf, hst, hol, hout, hfail, hpend, hscr⟩ := h
  exact ⟨clear_wf (clear_wf hwf _ _) _ _, fun c hc => hbuf c (mem_clear.mp (mem_clear.mp hc).1).1, hst, hol,
    fun c hc => hout c (mem_clear.mp (mem_clear.mp hc).1).1, hfail, hpend, hscr⟩

/-- The ciphertext fits OUT_BUF when the input fits IN_BUF (R164). -/
theorem ciphertext_length (u : UnitState) : (ciphertext u).length = (u.inLen.toNat / 16 + 1) * 16 := by
  rw [ciphertext, cbcEnc, cbcEncWith_length, pad_length_eq, inBytes_length]; omega

theorem decrypted_length (u : UnitState) : (decrypted u).length = 16 * (u.inLen.toNat / 16) := by
  rw [decrypted, cbcDec, cbcDecWith_length, inBytes_length]

/-- What Unpad returns of a decrypted input fits OUT_BUF. -/
theorem unpad_decrypted_length {u : UnitState} {r : List Byte} (h0 : 0 < u.inLen.toNat) (h16 : u.inLen.toNat % 16 = 0)
    (h : unpad (decrypted u) = some r) : r.length < u.inLen.toNat ∧ u.inLen.toNat ≤ r.length + 16 := by
  have hl : (decrypted u).length = u.inLen.toNat := by rw [decrypted_length]; omega
  have := unpad_length (by omega) h
  omega

/-- The invariant of the active unit survives every completion and every transaction. -/
theorem exec_unit_inv {i : Instr} {s t : State} (hp : s.params.wf = true) (h : s.unit.inv s.params)
    (he : exec i s = .next t) : ∃ u rs n, t = { s.setUnit u with rdata := s.rdata ++ rs, draws := s.draws + n } ∧
      u.inv s.params := by
  obtain ⟨hp0, hp1, hp2, -, -⟩ := params_wf_bounds hp
  have read : ∀ off w, ∃ u rs n, memRead off w s = { s.setUnit u with rdata := s.rdata ++ rs, draws := s.draws + n } ∧
      u.inv s.params := by
    intro off w
    rcases memRead_cases off w s with ⟨-, h'⟩ | ⟨-, -, v, h'⟩ | ⟨-, v, h'⟩ <;> rw [h']
    · exact ⟨s.unit.flagAccErr, [⟨s.master, 0⟩], 0, rfl, flagAccErr_inv h⟩
    · exact ⟨s.unit, [⟨s.master, v⟩], 1, by rw [setUnit_unit]; rfl, h⟩
    · exact ⟨s.unit, [⟨s.master, v⟩], 0, by rw [setUnit_unit]; rfl, h⟩
  have write : ∀ off w v, ∃ u rs n, memWrite off w v s = { s.setUnit u with rdata := s.rdata ++ rs, draws := s.draws + n } ∧
      u.inv s.params := by
    intro off w v
    exact ⟨_, [], 0, by simp [memWrite, onUnit_eq, State.setUnit], unit_memWrite_inv off w v h hp2 hp1⟩
  have plain : ∀ u, u.inv s.params → ∃ u' rs n,
      s.setUnit u = { s.setUnit u' with rdata := s.rdata ++ rs, draws := s.draws + n } ∧ u'.inv s.params :=
    fun u hu => ⟨u, [], 0, by simp [State.setUnit], hu⟩
  have drawn : ∀ u, u.inv s.params → ∃ u' rs n,
      (s.setUnit u).countDraw = { s.setUnit u' with rdata := s.rdata ++ rs, draws := s.draws + n } ∧ u'.inv s.params :=
    fun u hu => ⟨u, [], 1, by simp [State.setUnit, State.countDraw], hu⟩
  have hcap : s.params.outCap = s.params.maxIn + 16 := rfl
  have hcl := ciphertext_length s.unit
  have next_inj : ∀ {a b : State}, (Host.Outcome.next a : Host.Outcome State Fault Refusal) = .next b → a = b := by
    intro a b hab; injection hab
  cases i with
  | encrypt =>
    rcases execEncrypt_cases s with ⟨-, h'⟩ | ⟨-, -, -, h'⟩ | ⟨hl, -, -, h'⟩ | ⟨hl, -, h'⟩ <;>
      rw [← next_inj (h'.symm.trans he)]
    · exact plain _ (raise_inv _ h hp1)
    · exact drawn _ (raise_inv _ h hp1)
    · exact drawn _ (finishOk_inv h (by omega) hp1)
    · exact plain _ (finishOk_inv h (by omega) hp1)
  | decrypt =>
    rcases execDecrypt_cases s with ⟨-, h'⟩ | ⟨-, -, -, h'⟩ | ⟨h0, h16, hl, ⟨r, hr, h'⟩ | ⟨-, h'⟩⟩ <;>
      rw [← next_inj (h'.symm.trans he)]
    · exact plain _ (raise_inv _ h hp1)
    · exact plain _ (raise_inv _ h hp1)
    · exact plain _ (finishOk_inv h (by have := unpad_decrypted_length h0 h16 hr; omega) hp1)
    · exact plain _ (raise_inv _ h hp1)
  | deriveKey =>
    rw [← next_inj ((execDeriveKey_eq s).symm.trans he)]
    exact plain _ (finishOk_inv h (by simp; omega) hp1)
  | zeroize =>
    rw [← next_inj ((execZeroize_eq s).symm.trans he)]
    exact plain _ (finishOk_inv (clearInputs_inv h) (by simp) hp1)
  | rd8 off => rw [← next_inj he]; exact read _ _
  | rd16 off => rw [← next_inj he]; exact read _ _
  | rd32 off => rw [← next_inj he]; exact read _ _
  | wr8 off v => rw [← next_inj he]; exact write _ _ _
  | wr16 off v => rw [← next_inj he]; exact write _ _ _
  | wr32 off v => rw [← next_inj he]; exact write _ _ _

end Sys2Proof.Machine
end

