-- ==== Sys2Proof/Laws/PerInstr.lean ====
section
/-!
SUPPORT. Statements made of every instruction as syntax, one lemma per constructor. TableRow: an instruction's encoded
word has the fixed bits of its row in spec/opcode_table.json (spec/30_encoding.md R83).
-/

namespace Sys2Proof.Laws.TableRow

/-- The mask and the match of an instruction's row of R83, over the bits of its format. -/
def row : Instr → Nat × Nat
  | .encrypt => (0xFFFFFFFF, 0x00000001)
  | .decrypt => (0xFFFFFFFF, 0x00000002)
  | .deriveKey => (0xFFFFFFFF, 0x00000003)
  | .zeroize => (0xFFFFFFFF, 0x00000004)
  | .rd8 _ => (0x1C000000000000, 0x00000000000000)
  | .rd16 _ => (0x1C000000000000, 0x04000000000000)
  | .rd32 _ => (0x1C000000000000, 0x08000000000000)
  | .wr8 _ _ => (0x1C000000000000, 0x10000000000000)
  | .wr16 _ _ => (0x1C000000000000, 0x14000000000000)
  | .wr32 _ _ => (0x1C000000000000, 0x18000000000000)

/-- The encoded bits as a number. -/
def bits (i : Instr) : Nat :=
  match encode i with
  | .cmd w => w.toNat
  | .busreq w => w.toNat

/-- The encoded word matches the instruction's row. -/
def Statement (i : Instr) : Prop := bits i &&& (row i).1 = (row i).2

/-- The fixed bits of a packed BUSREQ are WE and SIZE, whatever OFF and WDATA hold (R82). -/
theorem pack_fixed (we : Bool) (size : BitVec 2) (off : Offset) (wdata : Word32) :
    packBusreq we size off wdata &&& 0x1C000000000000#53 = packBusreq we size 0#18 0#32 := by
  apply BitVec.eq_of_getLsbD_eq
  intro i hi
  simp only [packBusreq, BitVec.getLsbD_and, BitVec.getLsbD_append]
  by_cases h1 : i < 32
  · have : (0x1C000000000000#53).getLsbD i = false := by interval_cases i <;> decide
    simp [h1, this]
  · by_cases h2 : i < 50
    · have : (0x1C000000000000#53).getLsbD i = false := by interval_cases i <;> simp_all
      simp [h1, this, show i - 32 < 18 by omega]
    · have : (0x1C000000000000#53).getLsbD i = true := by interval_cases i <;> simp_all
      simp [h1, this, show ¬ i - 32 < 18 by omega]

/-- A BUSREQ row's statement, from its WE and SIZE alone. -/
theorem busreq_row (we : Bool) (size : BitVec 2) (off : Offset) (wdata : Word32) :
    (packBusreq we size off wdata).toNat &&& 0x1C000000000000 = (packBusreq we size 0#18 0#32).toNat := by
  rw [← pack_fixed we size off wdata, BitVec.toNat_and]; rfl

theorem encrypt : Statement .encrypt := rfl
theorem decrypt : Statement .decrypt := rfl
theorem deriveKey : Statement .deriveKey := rfl
theorem zeroize : Statement .zeroize := rfl
theorem rd8 (off : Offset) : Statement (.rd8 off) := busreq_row _ _ _ _
theorem rd16 (off : Offset) : Statement (.rd16 off) := busreq_row _ _ _ _
theorem rd32 (off : Offset) : Statement (.rd32 off) := busreq_row _ _ _ _
theorem wr8 (off : Offset) (wdata : Word32) : Statement (.wr8 off wdata) := busreq_row _ _ _ _
theorem wr16 (off : Offset) (wdata : Word32) : Statement (.wr16 off wdata) := busreq_row _ _ _ _
theorem wr32 (off : Offset) (wdata : Word32) : Statement (.wr32 off wdata) := busreq_row _ _ _ _

end Sys2Proof.Laws.TableRow
end

