-- ==== Sys2Proof/Laws/Step.lean ====
section
/-!
SUPPORT. What one turn of each agent can do, said once, and which turn a step takes.
-/

namespace Sys2Proof.Machine

/-! ## One transaction and one completion on the active unit -/

/-- `t` is `s` with one unit put in the active unit's place, responses appended and draws counted. -/
abbrev Acted (s : State) (u : UnitState) (t : State) : Prop :=
  ∃ rs n, t = { s.setUnit u with rdata := s.rdata ++ rs, draws := s.draws + n }

theorem acted_live {s t : State} {u : UnitState} (h : Acted s u t) : t.live ↔ s.live := by
  obtain ⟨rs, n, rfl⟩ := h; simp

theorem shaped_malformedSize (we : Bool) (s : State) : Acted s s.unit.flagAccErr (malformedSize we s) := by
  cases we
  · exact ⟨[⟨s.master, 0⟩], 0, rfl⟩
  · exact ⟨[], 0, by simp [malformedSize, onUnit_eq, State.setUnit]⟩

/-- A BUSREQ is one instruction, or a malformed access (R84). -/
theorem issue_cases (req : BitVec 53) (s : State) :
    (∃ i, decode (.busreq req) = .ok i ∧ issue req s = exec i s) ∨ issue req s = .next (malformedSize (fieldWe req) s) := by
  unfold issue
  cases decode (.busreq req) with
  | ok i => exact .inl ⟨i, rfl, rfl⟩
  | error r => exact .inr rfl

/-- A completion is one command, or ILLEGAL (R202, R205). -/
theorem complete_cases (w : Word32) (s : State) :
    (∃ i, decode (.cmd w) = .ok i ∧ complete w s = exec i s) ∨ complete w s = .next (s.fail .illegalCommand) := by
  unfold complete
  cases decode (.cmd w) with
  | ok i => exact .inl ⟨i, rfl, rfl⟩
  | error r => exact .inr rfl

theorem issue_next (req : BitVec 53) (s : State) : ∃ t u, issue req s = .next t ∧ Acted s u t := by
  rcases issue_cases req s with ⟨i, -, h⟩ | h <;> rw [h]
  · obtain ⟨t, ht, u, hu⟩ := exec_shaped i s; exact ⟨t, u, ht, hu⟩
  · exact ⟨_, _, rfl, shaped_malformedSize _ s⟩

theorem complete_next (w : Word32) (s : State) : ∃ t u, complete w s = .next t ∧ Acted s u t := by
  rcases complete_cases w s with ⟨i, -, h⟩ | h <;> rw [h]
  · obtain ⟨t, ht, u, hu⟩ := exec_shaped i s; exact ⟨t, u, ht, hu⟩
  · exact ⟨_, endErr s .illegalCommand, rfl, [], 0, by simp [fail_eq, State.setUnit]⟩

theorem issue_inv {req : BitVec 53} {s t : State} (hp : s.params.wf = true) (h : s.unit.inv s.params)
    (he : issue req s = .next t) : ∃ u, Acted s u t ∧ u.inv s.params := by
  rcases issue_cases req s with ⟨i, -, hi⟩ | hi <;> rw [hi] at he
  · obtain ⟨u, rs, n, hu, hv⟩ := exec_unit_inv hp h he; exact ⟨u, ⟨rs, n, hu⟩, hv⟩
  · injection he with he; exact ⟨_, he ▸ shaped_malformedSize _ s, flagAccErr_inv h⟩

theorem complete_inv {w : Word32} {s t : State} (hp : s.params.wf = true) (h : s.unit.inv s.params)
    (he : complete w s = .next t) : ∃ u, Acted s u t ∧ u.inv s.params := by
  rcases complete_cases w s with ⟨i, -, hi⟩ | hi <;> rw [hi] at he
  · obtain ⟨u, rs, n, hu, hv⟩ := exec_unit_inv hp h he; exact ⟨u, ⟨rs, n, hu⟩, hv⟩
  · injection he with he
    exact ⟨endErr s .illegalCommand, ⟨[], 0, by rw [← he]; simp [fail_eq, State.setUnit]⟩,
      raise_inv _ h (params_wf_bounds hp).2.1⟩

/-- What every completion leaves, whichever ending it takes (R201, R203, R206, R221): only the active unit and the count of
draws differ, the command is over, the sticky flags stand and the unit is scrubbed. -/
abbrev Completed (s : State) (u : UnitState) (t : State) : Prop :=
  (∃ n, t = { s.setUnit u with draws := s.draws + n }) ∧ u.status.busy = false ∧ u.status.done = true ∧
    u.status.accErr = s.unit.status.accErr ∧ u.status.busyViol = s.unit.status.busyViol ∧ scrubDone u

theorem completed_ok {s : State} {v : UnitState} (h : v.status = s.unit.status) (r : List Byte) (n : Nat) :
    Completed s (v.finishOk s.params r).scrub { s.setUnit (v.finishOk s.params r).scrub with draws := s.draws + n } :=
  ⟨⟨n, rfl⟩, rfl, rfl, by rw [← h]; rfl, by rw [← h]; rfl, rfl, rfl, rfl, rfl, rfl⟩

theorem completed_err (s : State) (e : CmdError) (n : Nat) :
    Completed s (endErr s e) { s.setUnit (endErr s e) with draws := s.draws + n } :=
  ⟨⟨n, rfl⟩, rfl, rfl, rfl, rfl, rfl, rfl, rfl, rfl, rfl⟩

theorem complete_completed (w : Word32) (s : State) : ∃ t u, complete w s = .next t ∧ Completed s u t := by
  rcases complete_cases w s with ⟨i, hd, h'⟩ | h' <;> rw [h']
  · simp only [decode, decodeCmd] at hd
    split_ifs at hd <;> injection hd with hd <;> subst hd
    · rcases execEncrypt_cases s with ⟨-, h⟩ | ⟨-, -, -, h⟩ | ⟨-, -, -, h⟩ | ⟨-, -, h⟩
      · exact ⟨_, _, h, completed_err s _ 0⟩
      · exact ⟨_, _, h, completed_err s _ 1⟩
      · exact ⟨_, _, h, completed_ok rfl _ 1⟩
      · exact ⟨_, _, h, completed_ok rfl _ 0⟩
    · rcases execDecrypt_cases s with ⟨-, h⟩ | ⟨-, -, -, h⟩ | ⟨-, -, -, ⟨r, -, h⟩ | ⟨-, h⟩⟩
      · exact ⟨_, _, h, completed_err s _ 0⟩
      · exact ⟨_, _, h, completed_err s _ 0⟩
      · exact ⟨_, _, h, completed_ok rfl _ 0⟩
      · exact ⟨_, _, h, completed_err s _ 0⟩
    · exact ⟨_, _, execDeriveKey_eq s, completed_ok rfl _ 0⟩
    · exact ⟨_, _, execZeroize_eq s, completed_ok (v := s.unit.clearInputs s.params) rfl [] 0⟩
  · exact ⟨_, _, rfl, completed_err s _ 0⟩

/-! ## A master's turn -/

@[simp] theorem programsAfter_request (w : Nat) (req : BitVec 53) (again : List (List HostOp)) (t : State) :
    (HostOp.request w req).programsAfter again t = t.hosts := rfl

@[simp] theorem programsAfter_readout (w : Nat) (again : List (List HostOp)) (t : State) :
    (HostOp.readout w).programsAfter again t =
      t.hosts.set t.master (readoutDataOps w t.lastRdata.toNat ++ t.hosts.getD t.master []) := rfl

/-- `readout` of L bytes is L div 4 word reads and L mod 4 byte reads (R92). -/
@[simp] theorem readoutDataOps_length (w len : Nat) : (readoutDataOps w len).length = len / 4 + len % 4 := by
  simp [readoutDataOps]

/-- A master's operation is one BUSREQ, after which only the masters' programs change (R90, R92). -/
theorem runHostOp_next (op : HostOp) (again : List (List HostOp)) (s : State) :
    ∃ t, issue op.issued s = .next t ∧ runHostOp op again s = .next { t with hosts := op.programsAfter again t } := by
  obtain ⟨t, u, ht, -⟩ := issue_next op.issued s
  exact ⟨t, ht, by simp [runHostOp, ht]⟩

/-- A plain request is its transaction and nothing more. -/
@[simp] theorem runHostOp_request (w : Nat) (req : BitVec 53) (again : List (List HostOp)) (s : State) :
    runHostOp (.request w req) again s = issue req s := by
  obtain ⟨t, ht, h⟩ := runHostOp_next (.request w req) again s
  exact h.trans ht.symm

/-- Everything a master's turn can do. -/
theorem hostTurn_cases (m : Nat) (s : State) :
    (s.hosts.getD m [] = [] ∧ hostTurn m s = .next s) ∨
    (∃ op rest, s.hosts.getD m [] = op :: rest ∧ unitAt s.params op.window = none ∧ hostTurn m s = .fault .noUnitAtWindow) ∨
    (∃ op rest u t, s.hosts.getD m [] = op :: rest ∧ unitAt s.params op.window = some u ∧
      issue op.issued { s with master := m, active := u, hosts := s.hosts.set m rest } = .next t ∧
      hostTurn m s = .next { t with hosts := op.programsAfter s.hosts t }) := by
  unfold hostTurn
  cases hh : s.hosts.getD m [] with
  | nil => exact .inl ⟨rfl, rfl⟩
  | cons op rest =>
    cases hu : unitAt s.params op.window with
    | none => exact .inr (.inl ⟨op, rest, rfl, hu, by simp [hu]⟩)
    | some u =>
      obtain ⟨t, ht, h⟩ := runHostOp_next op s.hosts { s with master := m, active := u, hosts := s.hosts.set m rest }
      exact .inr (.inr ⟨op, rest, u, t, rfl, hu, ht, by simpa [hu] using h⟩)

/-- A window that is found belongs to a unit. -/
theorem unitAt_lt {p : Params} {w u : Nat} (h : unitAt p w = some u) : u < p.nUnits :=
  (List.findIdx?_eq_some_iff_getElem.mp h).1

/-! ## An engine's turn -/

/-- Everything an engine's turn can do. -/
theorem engineTurn_cases (u : Nat) (s : State) :
    ((s.units[u]? = none ∨ ∃ v, s.units[u]? = some v ∧ v.status.busy = false) ∧ engineTurn u s = .next s) ∨
    (∃ v, s.units[u]? = some v ∧ v.status.busy = true ∧ engineTurn u s = complete v.pendingCmd { s with active := u }) := by
  unfold engineTurn
  cases hv : s.units[u]? with
  | none => exact .inl ⟨.inl rfl, rfl⟩
  | some v =>
    cases hb : v.status.busy with
    | false => exact .inl ⟨.inr ⟨v, rfl, hb⟩, by simp [hb]⟩
    | true => exact .inr ⟨v, rfl, hb, by simp [hb]⟩

/-! ## The machine's invariant -/

/-- Replacing the active unit by one in order keeps the machine in order, whatever the other agents hold. -/
theorem acted_inv {s t : State} {u : UnitState} (h : s.inv) (ha : Acted s u t) (hu : u.inv s.params) : t.inv := by
  obtain ⟨rs, n, rfl⟩ := ha
  obtain ⟨hp, hn, hact, hall⟩ := h
  refine ⟨hp, by simpa using hn, hact, fun v hv => ?_⟩
  rcases List.mem_or_eq_of_mem_set hv with hv | rfl
  · exact hall v hv
  · exact hu

/-- The active unit is in order. -/
theorem unit_inv {s : State} (h : s.inv) : s.unit.inv s.params := by
  obtain ⟨-, hn, hact, hall⟩ := h
  have hl : s.active < s.units.length := by omega
  have : s.unit = s.units[s.active] := by simp [State.unit, List.getD, List.getElem?_eq_getElem hl]
  rw [this]
  exact hall _ (List.getElem_mem hl)

theorem hostTurn_inv {m : Nat} {s t : State} (h : s.inv) (he : hostTurn m s = .next t) : t.inv := by
  rcases hostTurn_cases m s with ⟨-, e⟩ | ⟨op, rest, -, -, e⟩ | ⟨op, rest, u, t', -, hu, ht, e⟩
  · rw [e] at he; injection he with he; exact he ▸ h
  · rw [e] at he; cases he
  · have h' : State.inv { s with master := m, active := u, hosts := s.hosts.set m rest } :=
      ⟨h.1, h.2.1, unitAt_lt hu, h.2.2.2⟩
    obtain ⟨v, hv, hi⟩ := issue_inv h'.1 (unit_inv h') ht
    have ht' := acted_inv h' hv hi
    rw [e] at he; injection he with he; rw [← he]; exact ht'

theorem engineTurn_inv {u : Nat} {s t : State} (h : s.inv) (he : engineTurn u s = .next t) : t.inv := by
  rcases engineTurn_cases u s with ⟨-, e⟩ | ⟨v, hv, -, e⟩ <;> rw [e] at he
  · injection he with he; exact he ▸ h
  · have hu : u < s.params.nUnits := by
      rw [← h.2.1]; by_contra hn
      rw [List.getElem?_eq_none (by omega)] at hv; cases hv
    have h' : State.inv { s with active := u } := ⟨h.1, h.2.1, hu, h.2.2.2⟩
    obtain ⟨w, hw, hi⟩ := complete_inv h'.1 (unit_inv h') he
    exact acted_inv h' hw hi

/-! ## Which turn a step takes -/

/-- A step is the scheduled turn, or the due one, or nothing (log 3). -/
theorem step_cases (s : State) :
    (∃ a ts, s.turns = a :: ts ∧ step s = takeTurn a { s with turns := ts }) ∨
    (∃ a, s.turns = [] ∧ dueTurn s = some a ∧ step s = takeTurn a s) ∨ (s.turns = [] ∧ step s = .next s) := by
  unfold step turn
  cases ht : s.turns with
  | cons a ts => exact .inl ⟨a, ts, rfl, rfl⟩
  | nil =>
    cases hd : dueTurn s with
    | none => exact .inr (.inr ⟨rfl, by simp⟩)
    | some a => exact .inr (.inl ⟨a, rfl, rfl, by simp⟩)

end Sys2Proof.Machine
end

