-- ==== Sys2Proof/Tests/Slice0.lean ====
section
/-!
SUPPORT. The model's own tests: the WellFormed smoke tests, the decoding of words written out from the spec's encoding, one
step of each instruction and the functions of the cipher on values of spec/95_test_vectors.md, and for every statement with
hypotheses a witness that meets them together.
-/

namespace Sys2Proof.Tests

open Sys2Proof.Machine

/-! ## Small states -/

/-- Two units, 32-byte inputs, no cipher faults. -/
def params : Params := { maxIn := 32, cipherFaultPossible := false, unitBase := [0x00000, 0x40000] }

/-- "secret" in PASS_BUF and the given bytes in IN_BUF. -/
def loaded (input : List Byte) : Memory :=
  Memory.store (Memory.store [] 0x20 [0x73, 0x65, 0x63, 0x72, 0x65, 0x74]) 0x10000 input

/-- A unit under passphrase "secret" with these inputs, idle, its sticky flags as given. -/
def unit (input : List Byte) (sticky : Bool) : UnitState :=
  { UnitState.reset with
    mem := loaded input, passLen := 6, inLen := BitVec.ofNat 32 input.length
    status := { Status.reset with accErr := sticky, busyViol := sticky } }

/-- That unit with a command accepted. -/
def busy (input : List Byte) (word : Word32) : UnitState := (unit input false).accept word

/-- A machine whose first unit is `u`, its first master's program being `ops`. -/
def machine (u : UnitState) (ops : List HostOp) : State := { State.resetWith params with units := [u, .reset], hosts := [ops] }

/-- The machine with one instruction's table word placed as the next step. -/
def placed (u : UnitState) (nbits w : Nat) : State := (machine u []).withFetchWord nbits w

/-- "hello". -/
def hello : List Byte := [0x68, 0x65, 0x6c, 0x6c, 0x6f]

/-- The ciphertext of "hello" under "secret" (95_test_vectors.md 2.1). -/
def helloCipher : List Byte := [0x21, 0x0c, 0xa0, 0x9e, 0xb6, 0x42, 0xea, 0x37, 0x73, 0x0c, 0x78, 0x0a, 0x7e, 0x43, 0x04, 0xec]

/-- STATUS, OUT_LEN and the first `n` bytes of OUT_BUF after one step. -/
def result (s : State) (n : Nat) : Option (Word32 × Word32 × List Byte) :=
  match step s with
  | .next t => some (t.unit.status.word, t.unit.outLen, Memory.slice t.unit.mem 0x20000 n)
  | .fault _ => none
  | .refused _ => none

/-- The RDATA received last and STATUS after one step. -/
def answer (s : State) : Option (Word32 × Word32) :=
  match step s with
  | .next t => some (t.lastRdata, t.unit.status.word)
  | .fault _ => none
  | .refused _ => none

/-- STATUS and the 32-bit words at two offsets after one step. -/
def stored (s : State) (a b : Nat) : Option (Word32 × Word32 × Word32) :=
  match step s with
  | .next t => some (t.unit.status.word, Memory.readWord t.unit.mem a 4, Memory.readWord t.unit.mem b 4)
  | .fault _ => none
  | .refused _ => none

/-- The step answers a next state. -/
def goesOn (s : State) : Bool :=
  match step s with
  | .next _ => true
  | .fault _ => false
  | .refused _ => false

/-- The state after an instruction, itself where there is none. -/
def after (i : Instr) (s : State) : State :=
  match exec i s with
  | .next t => t
  | .fault _ => s
  | .refused _ => s

/-! ## WellFormed: each check refuses an ill-formed term (00_scope.md R9) -/

theorem test_wf_accepts_reset_params : Config.resetParams.wf = true := by decide
theorem test_wf_accepts_smallest : Params.wf { params with maxIn := 16 } = true := by decide
theorem test_wf_accepts_largest : Params.wf { params with maxIn := 65520 } = true := by decide
theorem test_wf_refuses_small_maxIn : Params.wf { params with maxIn := 0 } = false := by decide
theorem test_wf_refuses_large_maxIn : Params.wf { params with maxIn := 65536 } = false := by decide
theorem test_wf_refuses_uneven_maxIn : Params.wf { params with maxIn := 40 } = false := by decide
theorem test_wf_refuses_no_unit : Params.wf { params with unitBase := [] } = false := by decide
theorem test_wf_refuses_overlap : Params.wf { params with unitBase := [0x00000, 0x3FFFF] } = false := by decide

/-! ## Decoding: words written out from 30_encoding.md R81, R82, one for each constructor -/

theorem test_decode_encrypt : decodeTableWord 32 0x00000001 = some .encrypt := by decide
theorem test_decode_decrypt : decodeTableWord 32 0x00000002 = some .decrypt := by decide
theorem test_decode_deriveKey : decodeTableWord 32 0x00000003 = some .deriveKey := by decide
theorem test_decode_zeroize : decodeTableWord 32 0x00000004 = some .zeroize := by decide
/-- WE 0, SIZE 00, OFF 10_0000_0000_0000_0001. -/
theorem test_decode_rd8 : decodeTableWord 56 0b000_100000000000000001_00000000000000000000000000000000 =
    some (.rd8 0x20001#18) := by decide
/-- WE 0, SIZE 01, OFF 01_0000_0000_0000_0010. -/
theorem test_decode_rd16 : decodeTableWord 56 0b001_010000000000000010_00000000000000000000000000000000 =
    some (.rd16 0x10002#18) := by decide
/-- WE 0, SIZE 10, OFF 00_0000_0000_0000_1100; the WDATA of a read is ignored. -/
theorem test_decode_rd32 : decodeTableWord 56 0b010_000000000000001100_11111111111111111111111111111111 =
    some (.rd32 0x0000C#18) := by decide
/-- WE 1, SIZE 00, OFF 00_0000_0000_0010_0101, WDATA 0x74. -/
theorem test_decode_wr8 : decodeTableWord 56 0b100_000000000000100101_00000000000000000000000001110100 =
    some (.wr8 0x00025#18 0x74#32) := by decide
/-- WE 1, SIZE 01, OFF 01_0000_0000_0000_0000, WDATA 0x6568. -/
theorem test_decode_wr16 : decodeTableWord 56 0b101_010000000000000000_00000000000000000110010101101000 =
    some (.wr16 0x10000#18 0x6568#32) := by decide
/-- WE 1, SIZE 10, OFF 00_0000_0000_0000_1000, WDATA 1. -/
theorem test_decode_wr32 : decodeTableWord 56 0b110_000000000000001000_00000000000000000000000000000001 =
    some (.wr32 0x00008#18 0x1#32) := by decide
theorem test_decode_refuses_illegal : decodeTableWord 32 0x00000101 = none ∧ decodeTableWord 32 0 = none ∧
    decodeTableWord 32 0x80000002 = none := by decide
theorem test_decode_refuses_size11 : decodeTableWord 56 0x0C000000000000 = none := by decide
theorem test_decode_refuses_stray_bit : decodeTableWord 56 0x20000000000000 = none := by decide
theorem test_decode_refuses_length : decodeBytes .cmd [0x01, 0x00] = .error (.wrongLength 2) := by decide

/-! ## One step of each instruction (95_test_vectors.md 2.1, 3.2-3.8) -/

theorem test_encrypt_hello : result (placed (unit hello false) 32 1) 16 = some (0x6, 16, helloCipher) := by decide +kernel
theorem test_encrypt_overlong :
    result (placed { unit hello false with inLen := 33 } 32 1) 2 = some (0x42, 0, [0x00, 0x00]) := by decide +kernel
theorem test_decrypt_hello : result (placed (unit helloCipher false) 32 2) 8 = some (0x6, 5, hello ++ [0, 0, 0]) := by
  decide +kernel
theorem test_decrypt_checks_every_pad_byte :
    result (placed (unit [0x5e, 0x0a, 0xf8, 0x70, 0x09, 0xc7, 0x06, 0x35, 0x7b, 0x38, 0xef, 0x72, 0x37, 0x13, 0x95, 0x73] false)
      32 2) 1 = some (0x32, 0, [0x00]) := by decide +kernel
theorem test_deriveKey_ignores_bytes_past_the_length :
    result (placed { unit [] false with mem := Memory.write (loaded []) 0x26 0xFF } 32 3) 8 =
      some (0x6, 32, [0x73, 0x65, 0x63, 0x72, 0x65, 0x74, 0x00, 0x00]) := by decide +kernel
theorem test_zeroize_keeps_the_sticky_flags : result (placed (unit hello true) 32 4) 1 = some (0x306, 0, [0x00]) := by
  decide +kernel
theorem test_illegal_command : result (placed { unit hello false with inLen := 0xFFFFFFFF } 32 0x101) 1 =
    some (0x52, 0, [0x00]) := by decide +kernel
theorem test_rd8_last_output_byte : answer (placed .reset 56 0x02002F00000000) = some (0x00, 0x000) := by decide
theorem test_rd8_past_the_output : answer (placed .reset 56 0x02003000000000) = some (0x00, 0x100) := by decide
theorem test_rd16_little_endian : answer (placed (unit [] false) 56 0x04002200000000) = some (0x7263, 0x000) := by decide
theorem test_rd16_unaligned : answer (placed (unit [] false) 56 0x04002100000000) = some (0x0, 0x100) := by decide
theorem test_rd32_id : answer (placed .reset 56 0x08000000000000) = some (0xae5c0001, 0x000) := by decide
theorem test_rd32_status_while_busy : answer (placed (busy [] 1) 56 0x08000c00000000) = some (0x1, 0x1) := by decide
theorem test_wr8_ignores_high_bits : stored (placed .reset 56 0x10002000001234) 0x20 0x24 = some (0x0, 0x34, 0x0) := by decide
theorem test_wr8_while_busy : stored (placed (busy [] 1) 56 0x10002100000055) 0x20 0x24 = some (0x201, 0x72636573, 0x7465) := by
  decide
theorem test_wr16_little_endian : stored (placed .reset 56 0x1400220000bbaa) 0x20 0x24 = some (0x0, 0xbbaa0000, 0x0) := by decide
theorem test_wr16_of_a_register : stored (placed .reset 56 0x14001000000005) 0x20 0x24 = some (0x100, 0x0, 0x0) := by decide
theorem test_wr32_command_is_accepted : answer (placed .reset 56 0x18000800000001) = some (0x0, 0x1) := by decide
theorem test_wr32_clears_a_sticky_flag : answer (placed (unit [] true) 56 0x18000c00000100) = some (0x0, 0x200) := by decide

/-! ## The functions (95_test_vectors.md 1, 2.5, 3.1, 3.3) -/

theorem test_gmul : gmul 0x57 0x83 = 0xC1 ∧ gmul 0x57 0x13 = 0xFE ∧ xtime 0x57 = 0xAE := by decide
theorem test_sbox : sbox 0x53 = 0xED ∧ sbox 0xFF = 0x16 ∧ invSbox 0x00 = 0x52 ∧ invSbox 0xED = 0x53 := by decide
/-- w[8] and w[59] of FIPS-197 A.3. -/
theorem test_keyExpansion :
    let w := keyExpansion [0x60, 0x3d, 0xeb, 0x10, 0x15, 0xca, 0x71, 0xbe, 0x2b, 0x73, 0xae, 0xf0, 0x85, 0x7d, 0x77, 0x81,
      0x1f, 0x35, 0x2c, 0x07, 0x3b, 0x61, 0x08, 0xd7, 0x2d, 0x98, 0x10, 0xa3, 0x09, 0x14, 0xdf, 0xf4]
    w.getD 8 .zero = ⟨0x9b, 0xa3, 0x54, 0x11⟩ ∧ w.getD 59 .zero = ⟨0x70, 0x6c, 0x63, 0x1e⟩ := by decide +kernel
/-- SP 800-38A F.2.5, block 1: the general IV is XORed before the cipher. -/
theorem test_cbc_general_iv :
    cbcEnc [0x60, 0x3d, 0xeb, 0x10, 0x15, 0xca, 0x71, 0xbe, 0x2b, 0x73, 0xae, 0xf0, 0x85, 0x7d, 0x77, 0x81,
        0x1f, 0x35, 0x2c, 0x07, 0x3b, 0x61, 0x08, 0xd7, 0x2d, 0x98, 0x10, 0xa3, 0x09, 0x14, 0xdf, 0xf4]
      (Block.load ((List.range 16).map (BitVec.ofNat 8)))
      [0x6b, 0xc1, 0xbe, 0xe2, 0x2e, 0x40, 0x9f, 0x96, 0xe9, 0x3d, 0x7e, 0x11, 0x73, 0x93, 0x17, 0x2a] =
    [0xf5, 0x8c, 0x4c, 0x04, 0xd6, 0xe5, 0xf1, 0xba, 0x77, 0x9e, 0xab, 0xfb, 0x5f, 0x7b, 0xfb, 0xd6] := by decide +kernel
theorem test_pad_lengths : (pad (List.replicate 15 0)).length = 16 ∧ (pad (List.replicate 16 0)).length = 32 ∧
    (pad hello).drop 5 = List.replicate 11 0x0b := by decide
theorem test_kdf_31_and_33_bytes : kdf (List.replicate 32 0x41) 31 = List.replicate 31 0x41 ++ [0x00] ∧
    kdf (List.replicate 32 0x41) 33 = List.replicate 32 0x41 := by decide
theorem test_utf8 : utf8 [0xE9] = some [0xc3, 0xa9] ∧ utf8 [0x20AC] = some [0xe2, 0x82, 0xac] ∧
    utf8 [0x1F600] = some [0xf0, 0x9f, 0x98, 0x80] ∧ utf8 [0x61, 0xD800] = none := by decide
/-- Program P1's first transactions (95_test_vectors.md 4): setpass "secret". -/
theorem test_setpass_transactions : setpassOps 0 [0x73, 0x65, 0x63, 0x72, 0x65, 0x74] =
    [.request 0 0x18002072636573#53, .request 0 0x10002400000065#53, .request 0 0x10002500000074#53,
     .request 0 0x18001000000006#53] := by decide

/-- Programs P1 and P2, readout (95_test_vectors.md 4): what r is for their RDATA, and P2's transactions after OUT_LEN. -/
theorem test_readout_result : readoutBytes [0x10, 0x9ea00c21, 0x37ea42b6, 0x0a780c73, 0xec04437e] = helloCipher ∧
    readoutBytes [0x5, 0x6c6c6568, 0x6f] = hello ∧ readoutBytes [0x0] = [] := by decide
theorem test_readout_transactions : readoutDataOps 0 5 = [.request 0 0x0a000000000000#53, .request 0 0x02000400000000#53] := by
  decide
/-- The constants ID and CAPS are part of a run's observation (R264, R22, R23). -/
theorem test_observation_has_the_constants :
    ((machine .reset []).observe 0 1).id = 0xae5c0001 ∧ ((machine .reset []).observe 0 1).caps = 32 := by decide

/-! ## Witnesses: for every statement with hypotheses, operands that meet them together -/

theorem witness_DecodedWordsReencode :
    decode (.cmd 0x4#32) = .ok .zeroize ∧
    (decode (.busreq 0x1BFFFFFFFFFFFF#53) = .ok (.wr32 0x3FFFF#18 0xFFFFFFFF#32) ∧ (0x1BFFFFFFFFFFFF#53).getLsbD 52 = true) ∧
    (decode (.busreq 0x03FFFFFFFFFFFF#53) = .ok (.rd8 0x3FFFF#18) ∧ (0x03FFFFFFFFFFFF#53).getLsbD 52 = false) := by decide

/-- Both clauses: the scheduled turn and the due one, on the second unit. -/
theorem witness_HostStepRunsTheDecodedInstruction :
    let op : HostOp := .request 0x40000 0x08000000000000#53
    let s := machine (unit hello false) [op]
    s.hosts.getD 0 [] = [op] ∧ unitAt s.params 0x40000 = some 1 ∧ decode (.busreq 0x08000000000000#53) = .ok (.rd32 0#18) ∧
    ({ s with turns := [.host 0] } : State).turns = [.host 0] ∧
    s.turns = [] ∧ s.units.findIdx? (fun v => v.status.busy) = none ∧ s.hosts.findIdx? (fun h => !h.isEmpty) = some 0 := by decide

theorem witness_EngineStepRunsThePendingCommand :
    let s := machine (busy hello 1) []
    s.units[0]? = some (busy hello 1) ∧ (busy hello 1).status.busy = true ∧ s.turns = [] ∧
    s.units.findIdx? (fun v => v.status.busy) = some 0 ∧ decode (.cmd (busy hello 1).pendingCmd) = .ok .encrypt ∧
    ({ s with turns := [.engine 1] } : State).units[1]? = some UnitState.reset ∧ UnitState.reset.status.busy = false := by decide

theorem witness_PlacedWordIsTheNextStep :
    (machine (unit hello true) []).inv ∧ (machine (unit hello true) []).hosts ≠ [] ∧ decodeTableWord 32 1 = some .encrypt ∧
    decodeTableWord 56 0x18001000000006 = some (.wr32 0x10#18 6#32) := by decide

/-- Both clauses: an idle unit without DONE answers 0, which the mask 0x3 does not take to 0x2 but the mask 0x4 takes to 0. -/
theorem witness_PollRepeatsUntilTheMaskedValueMatches :
    let op : HostOp := .poll 0 0x0C#18 0x3#32 0x2#32
    let s : State := { machine .reset [op] with turns := [.host 0] }
    s.turns = [.host 0] ∧ s.hosts[0]? = some [op] ∧ unitAt s.params 0 = some 0 ∧
    (after (.rd32 0x0C#18) s).lastRdata &&& 0x3#32 ≠ 0x2#32 ∧ (after (.rd32 0x0C#18) s).lastRdata &&& 0x4#32 = 0x0#32 := by decide

theorem witness_WaitEndsAfterAnAcceptedCommand :
    let s := machine (busy hello 4) (waitOps 0)
    s.turns = [] ∧ s.units[0]? = some (busy hello 4) ∧ (busy hello 4).status.busy = true ∧
    (∀ x w, s.units[x]? = some w → x ≠ 0 → w.status.busy = false) ∧ unitAt s.params 0 = some 0 ∧ s.hosts = [waitOps 0 ++ []] := by
  refine ⟨rfl, rfl, rfl, ?_, rfl, rfl⟩
  rintro (_ | _ | x) w h hx
  · exact absurd rfl hx
  · cases h; rfl
  · cases h

theorem witness_WaitHangsWithoutAnAcceptedCommand :
    let s := machine (unit hello true) (waitOps 0)
    s.turns = [] ∧ (∀ w ∈ s.units, w.status.busy = false) ∧ s.units[0]? = some (unit hello true) ∧
    (unit hello true).status.done = false ∧ unitAt s.params 0 = some 0 ∧ s.hosts = [waitOps 0 ++ []] := by decide

theorem witness_ResetLeavesTheSpecifiedState : 0 < params.nUnits ∧ 1 < params.nUnits := by decide

theorem witness_ResetInputDiscardsTheCommandInFlight :
    let s := machine (busy hello 1) []
    ({ s with turns := [.rst 0] } : State).turns = [.rst 0] ∧ ({ s with turns := [.rstAll] } : State).turns = [.rstAll] ∧
    0 < s.units.length := by decide

theorem witness_ResetIsInOrder : params.wf = true := by decide

/-- A state in order whose next step is a completion. -/
theorem witness_EveryStepKeepsTheInvariant :
    (machine (busy hello 4) []).inv ∧ goesOn (machine (busy hello 4) []) = true := by decide +kernel

theorem witness_EveryStepAnswersANextState :
    let s := machine .reset [.request 0x40000 0#53, .poll 0 0x0C#18 0x3#32 0x2#32]
    ∀ h ∈ s.hosts, ∀ op ∈ h, (unitAt s.params op.window).isSome = true := by decide

theorem witness_StepsKeepTheParameters : goesOn (placed (unit hello false) 56 0x18001000000006) = true := by decide

theorem witness_OtherUnitsAreUntouched :
    exec (.wr32 0x10#18 6#32) (machine .reset []) = .next (after (.wr32 0x10#18 6#32) (machine .reset [])) ∧
    (1 : Nat) ≠ (machine .reset []).active ∧
    engineTurn 1 (machine (busy hello 4) []) = .next (machine (busy hello 4) []) ∧ (0 : Nat) ≠ 1 := ⟨rfl, by decide, rfl, by decide⟩

/-- Two busy units, one to be zeroized and one with an illegal command. -/
theorem witness_CompletionsOfDifferentUnitsCommute :
    let s : State := { machine (busy hello 4) [] with units := [busy hello 4, busy hello 9] }
    s.params.cipherFaultPossible = false ∧ (0 : Nat) ≠ 1 ∧
    ∃ a ab b ba, engineTurn 0 s = .next a ∧ engineTurn 1 a = .next ab ∧ engineTurn 1 s = .next b ∧ engineTurn 0 b = .next ba :=
  ⟨rfl, by decide, _, _, _, _, rfl, rfl, rfl, rfl⟩

/-- A guarded write to the busy unit. -/
theorem witness_HostsCannotTouchACommandInFlight :
    let s := machine (busy hello 1) [.request 0 0x18001400000003#53]
    s.units[0]? = some (busy hello 1) ∧ (busy hello 1).status.busy = true ∧ ∃ t, hostTurn 0 s = .next t :=
  ⟨rfl, rfl, _, rfl⟩

theorem witness_EveryCompletionEndsItsCommand :
    (machine (busy hello 9) []).units[0]? = some (busy hello 9) ∧ (busy hello 9).status.busy = true := ⟨rfl, rfl⟩

theorem witness_OnlyZeroizeWritesTheInputs :
    let s := machine (busy hello 9) []
    s.params.wf = true ∧ s.units[0]? = some (busy hello 9) ∧ (busy hello 9).pendingCmd ≠ 4#32 ∧ ∃ t, engineTurn 0 s = .next t :=
  ⟨by decide, rfl, by decide, _, rfl⟩

theorem witness_WindowMapIsAsTabulated : params.wf = true ∧ Params.wf { params with maxIn := 65520 } = true := by decide

/-- Each width at the last place of its region. -/
theorem witness_AlignedAccessesStayInOneRegion :
    params.wf = true ∧ 0x1001F % Width.b1.bytes = 0 ∧ 0 < Width.b1.bytes ∧ 0x1001E % Width.b2.bytes = 0 ∧ 1 < Width.b2.bytes ∧
    0x1001C % Width.b4.bytes = 0 ∧ 3 < Width.b4.bytes := by decide

/-- Every condition of every clause, at a boundary: registers, the hole at 0x1C, the ends of PASS, IN and OUT, unaligned offsets, the
read-only targets, and SIZE = 11 as a read and as a write. -/
theorem witness_MalformedAccessesOnlySetAccErr :
    region params 0x00 = .reg ∧ region params 0x1B = .reg ∧ region params 0x1C = .unmapped ∧ region params 0x1F = .unmapped ∧
    region params 0x40 = .unmapped ∧ region params 0xFFFF = .unmapped ∧ region params 0x10020 = .unmapped ∧
    region params 0x20000 = .out ∧ region params 0x2002F = .out ∧ region params 0x20030 = .unmapped ∧
    region params 0x3FFFF = .unmapped ∧ (0x21#18).toNat % 2 ≠ 0 ∧ (0x22#18).toNat % 4 ≠ 0 ∧
    (0x00#18).toNat = 0x00 ∧ (0x04#18).toNat = 0x04 ∧ (0x18#18).toNat = 0x18 ∧
    ((0x0C000000000000#53).getLsbD 51 = true ∧ (0x0C000000000000#53).getLsbD 50 = true ∧ (0x0C000000000000#53).getLsbD 52 = false) ∧
    ((0x1C000000000000#53).getLsbD 51 = true ∧ (0x1C000000000000#53).getLsbD 50 = true ∧ (0x1C000000000000#53).getLsbD 52 = true) := by
  decide

/-- Each region at its last aligned place, for each width. -/
theorem witness_BufferReadsAreLittleEndian :
    let s := machine (unit hello false) []
    region s.params (0x3F#18).toNat = .pass ∧ region s.params (0x3E#18).toNat = .pass ∧ (0x3E#18).toNat % 2 = 0 ∧
    region s.params (0x1001C#18).toNat = .inp ∧ (0x1001C#18).toNat % 4 = 0 ∧
    region s.params (0x2002C#18).toNat = .out ∧ s.unit.status.busy = false := by decide

theorem witness_RegisterReadsReturnTheRegister : (machine (unit hello false) []).unit.status.busy = false := by decide

theorem witness_StatusWordHasTheTabulatedLayout : 10 ≤ 10 ∧ 10 ≤ 31 := by decide

theorem witness_OutputReadsWhileBusyAreDraws :
    let s := machine (busy hello 1) []
    s.unit.status.busy = true ∧ region s.params (0x2002F#18).toNat = .out ∧ region s.params (0x2002E#18).toNat = .out ∧
    (0x2002E#18).toNat % 2 = 0 ∧ region s.params (0x20000#18).toNat = .out ∧ (0x20000#18).toNat % 4 = 0 ∧
    (0x18#18).toNat = 0x18 := by decide

/-- Both clauses, at neighbouring offsets: a well-formed RD16 and a misaligned one. -/
theorem witness_ReadsHaveNoSideEffect :
    let s := machine (unit hello false) []
    (malformed s.params (0x22#18).toNat .b2 false = false ∧ exec (.rd16 0x22#18) s = .next (after (.rd16 0x22#18) s)) ∧
    (malformed s.params (0x21#18).toNat .b2 false = true ∧ exec (.rd16 0x21#18) s = .next (after (.rd16 0x21#18) s)) :=
  ⟨⟨by decide, rfl⟩, by decide, rfl⟩

theorem witness_BufferWritesStoreLittleEndian :
    let s := machine (unit hello false) []
    Memory.wf s.unit.mem ∧ s.unit.status.busy = false ∧ region s.params (0x3F#18).toNat = .pass ∧
    region s.params (0x1001E#18).toNat = .inp ∧ (0x1001E#18).toNat % 2 = 0 ∧
    region s.params (0x1001C#18).toNat = .inp ∧ (0x1001C#18).toNat % 4 = 0 := by decide

theorem witness_StatusWritesClearTheStickyFlags : 10 ≤ 10 ∧ 10 ≤ 31 := by decide

theorem witness_LengthRegisterWritesTakeTheValue : (machine (unit hello true) []).unit.status.busy = false := by decide

theorem witness_GuardedWritesWhileBusyAreDropped :
    let s := machine (busy hello 1) []
    s.unit.status.busy = true ∧ (0x08#18).toNat = 0x08 ∧ (0x10#18).toNat = 0x10 ∧ (0x14#18).toNat = 0x14 ∧
    region s.params (0x3F#18).toNat = .pass ∧ region s.params (0x1001E#18).toNat = .inp ∧ (0x1001E#18).toNat % 2 = 0 ∧
    region s.params (0x1001C#18).toNat = .inp ∧ (0x1001C#18).toNat % 4 = 0 := by decide

theorem witness_CommandWritesAreAccepted : (machine (unit hello true) []).unit.status.busy = false := by decide

theorem witness_WrittenValuesReadBack :
    let s := machine (unit hello false) []
    s.live ∧ Memory.wf s.unit.mem ∧ s.unit.status.busy = false ∧
    (region s.params (0x3F#18).toNat = .pass ∧ exec (.wr8 0x3F#18 5#32) s = .next (after (.wr8 0x3F#18 5#32) s)) ∧
    (region s.params (0x1001E#18).toNat = .inp ∧ (0x1001E#18).toNat % 2 = 0 ∧
      exec (.wr16 0x1001E#18 5#32) s = .next (after (.wr16 0x1001E#18 5#32) s)) ∧
    ((0x14#18).toNat % 4 = 0 ∧ exec (.wr32 0x14#18 5#32) s = .next (after (.wr32 0x14#18 5#32) s)) :=
  ⟨by decide, by decide, by decide, ⟨by decide, rfl⟩, ⟨by decide, by decide, rfl⟩, by decide, rfl⟩

/-- The second clause: equal keys from buffers that differ past the length, and from two lengths above 32. -/
theorem witness_KeyIsThePassphraseFittedTo32Bytes :
    31 < 32 ∧ min 33 32 = min 1000 32 ∧
    (∀ i, i < min 2 32 → ([0x61, 0x62, 0x63] : List Byte).getD i 0 = ([0x61, 0x62] : List Byte).getD i 0) := by decide

theorem witness_DeriveKeyOutputsTheKey :
    (machine (unit [] false) []).params.wf = true ∧ Memory.wf (machine (unit [] false) []).unit.mem := by decide

theorem witness_SetpassLoadsThePassphrase :
    let s := machine (unit [] false) (setpassOps 0x40000 hello)
    s.inv ∧ s.turns = [] ∧ (∀ v ∈ s.units, v.status.busy = false) ∧ unitAt s.params 0x40000 = some 1 ∧
    s.hosts = [setpassOps 0x40000 hello ++ []] := by decide

theorem witness_SboxIsTheAffineMapOfTheInverse : (0x53#8) ≠ 0x00#8 ∧ gmul 0x53#8 0xCA#8 = 0x01#8 ∧ 7 < 8 := by decide

theorem witness_KeyExpansionSatisfiesItsRecurrence : (List.replicate 32 (0 : Byte)).length = 32 ∧ 7 < 8 ∧ 8 ≤ 8 ∧ 8 ≤ 59 ∧ 59 < 60 := by
  decide

theorem witness_PaddingIsRemovedExactly :
    (5 ≤ 15 ∧ 15 < (pad hello).length) ∧ (pad hello).length % 16 = 0 ∧ pad hello ≠ [] ∧ unpad (pad hello) = some hello := by decide

/-- A unit that cannot fail and one that can, each with an input of exactly MAX_IN bytes. -/
theorem witness_EncryptOutputsTheCiphertext :
    let s := machine (unit (List.replicate 32 0x61) false) []
    let f : State := { s with params := { params with cipherFaultPossible := true } }
    (s.params.wf = true ∧ Memory.wf s.unit.mem ∧ s.unit.inLen.toNat ≤ s.params.maxIn ∧ s.params.cipherFaultPossible = false) ∧
    (f.params.wf = true ∧ Memory.wf f.unit.mem ∧ f.unit.inLen.toNat ≤ f.params.maxIn ∧ f.params.cipherFaultPossible = true) := by
  decide +kernel

theorem witness_EncryptRefusesAnOverlongInput :
    let s := machine { unit [] false with inLen := 33 } []
    s.params.maxIn < s.unit.inLen.toNat := by decide

/-- The state after ENCRYPT of "hello" under "secret". -/
def encrypted : State := after .encrypt (machine (unit hello false) [])

theorem encrypted_eq : exec .encrypt (machine (unit hello false) []) = .next encrypted := rfl

theorem witness_CiphertextLengthLaw :
    (machine (unit hello false) []).params.wf = true ∧ exec .encrypt (machine (unit hello false) []) = .next encrypted ∧
    encrypted.unit.status.valid = true := ⟨by decide, encrypted_eq, by decide +kernel⟩

/-- The second state differs in its sticky flags and in a byte past PASS_LEN. -/
theorem witness_EncryptIsDeterministic :
    let s1 := machine (unit hello false) []
    let s2 := machine { unit hello true with mem := Memory.write (loaded hello) 0x26 0xFF } []
    s1.params.wf = true ∧ s2.params.wf = true ∧ Memory.wf s1.unit.mem ∧ Memory.wf s2.unit.mem ∧
    exec .encrypt s1 = .next (after .encrypt s1) ∧ exec .encrypt s2 = .next (after .encrypt s2) ∧
    (after .encrypt s1).unit.status.valid = true ∧ (after .encrypt s2).unit.status.valid = true ∧
    s1.unit.inLen = s2.unit.inLen ∧ s1.unit.inBytes = s2.unit.inBytes ∧ s1.unit.key = s2.unit.key :=
  ⟨by decide, by decide, by decide, by decide, rfl, rfl, by decide +kernel, by decide +kernel, by decide, by decide, by decide⟩

theorem witness_SharedPlaintextPrefixGivesSharedCiphertextPrefix :
    let p1 : List Byte := List.replicate 16 0x61
    let p2 : List Byte := List.replicate 16 0x61 ++ [0x62]
    16 * 1 ≤ p1.length ∧ 16 * 1 ≤ p2.length ∧ p1.take (16 * 1) = p2.take (16 * 1) := by decide

theorem witness_CbcDecryptionUndoesEncryption : (List.replicate 32 (0x61 : Byte)).length % 16 = 0 := by decide

/-- Two strings of three blocks that differ in block 0 only; byte 32 stands in block 2. The first clause at the last block. -/
theorem witness_CiphertextChangesSpreadToTwoBlocks :
    let c : List Byte := List.replicate 48 0x61
    let d : List Byte := 0x62 :: List.replicate 47 0x61
    (c.length % 16 = 0 ∧ 16 * 2 < c.length) ∧
    c.length = d.length ∧ c.length % 16 = 0 ∧ (∀ i, i / 16 ≠ 0 → c.getD i 0 = d.getD i 0) ∧ 32 / 16 ≠ 0 ∧ 32 / 16 ≠ 0 + 1 := by
  refine ⟨⟨rfl, by decide⟩, rfl, rfl, ?_, by decide, by decide⟩
  rintro (_ | i) h
  · exact absurd rfl h
  · rfl

theorem witness_DecryptOutputsThePlaintext :
    let s := machine (unit helloCipher false) []
    s.params.wf = true ∧ Memory.wf s.unit.mem ∧ s.unit.inLen.toNat % 16 = 0 ∧ 0 < s.unit.inLen.toNat ∧
    s.unit.inLen.toNat ≤ s.params.maxIn ∧
    unpad (cbcDec (kdf (Memory.slice s.unit.mem 0x20 32) s.unit.passLen.toNat) ⟨⟨0, 0, 0, 0⟩, ⟨0, 0, 0, 0⟩, ⟨0, 0, 0, 0⟩, ⟨0, 0, 0, 0⟩⟩
      (Memory.slice s.unit.mem 0x10000 s.unit.inLen.toNat)) = some hello := by decide +kernel

/-- Each clause: lengths 0, 17 and 0xFFFFFFFF; the first multiple of 16 above MAX_IN and the last of 32 bits; sixteen zero bytes. -/
theorem witness_DecryptReportsItsFailuresInOrder :
    let s (n : Word32) := machine { unit [] false with inLen := n } []
    (s 0).unit.inLen.toNat = 0 ∧ (s 17).unit.inLen.toNat % 16 ≠ 0 ∧ (s 0xFFFFFFFF).unit.inLen.toNat % 16 ≠ 0 ∧
    (0 < (s 48).unit.inLen.toNat ∧ (s 48).unit.inLen.toNat % 16 = 0 ∧ (s 48).params.maxIn < (s 48).unit.inLen.toNat) ∧
    ((s 0xFFFFFFF0).unit.inLen.toNat % 16 = 0 ∧ (s 0xFFFFFFF0).params.maxIn < (s 0xFFFFFFF0).unit.inLen.toNat) ∧
    (0 < (s 16).unit.inLen.toNat ∧ (s 16).unit.inLen.toNat % 16 = 0 ∧ (s 16).unit.inLen.toNat ≤ (s 16).params.maxIn ∧
      unpad (cbcDec (kdf (Memory.slice (s 16).unit.mem 0x20 32) (s 16).unit.passLen.toNat) iv0
        (Memory.slice (s 16).unit.mem 0x10000 (s 16).unit.inLen.toNat)) = none) := by decide +kernel

/-- A second unit state, loaded with the ciphertext the first left. -/
theorem witness_DecryptReturnsWhatWasEncrypted :
    let s := machine (unit hello false) []
    let d := machine (unit helloCipher true) []
    s.params.wf = true ∧ Memory.wf s.unit.mem ∧ exec .encrypt s = .next encrypted ∧ encrypted.unit.status.valid = true ∧
    d.params.wf = true ∧ Memory.wf d.unit.mem ∧ d.unit.key = s.unit.key ∧ d.unit.inLen = encrypted.unit.outLen ∧
    d.unit.inLen.toNat ≤ d.params.maxIn ∧
    d.unit.inBytes = Memory.slice encrypted.unit.mem 0x20000 encrypted.unit.outLen.toNat :=
  ⟨by decide, by decide, encrypted_eq, by decide +kernel, by decide, by decide, by decide, by decide +kernel, by decide,
    by decide +kernel⟩

theorem witness_ZeroizeClearsBuffersAndLengths : (machine (unit hello true) []).unit.inv (machine (unit hello true) []).params := by
  decide

/-- The word 0 and the first and the last illegal word above it. -/
theorem witness_IllegalCommandsEndInCodeFive :
    ((machine (busy hello 0) []).units[0]? = some (busy hello 0) ∧ (busy hello 0).status.busy = true ∧ (busy hello 0).pendingCmd = 0) ∧
    5 ≤ (busy hello 5).pendingCmd.toNat ∧ 5 ≤ (busy hello 0xFFFFFFFF).pendingCmd.toNat := by decide

/-- Both ends of each row of the table. -/
theorem witness_Utf8FollowsItsTable :
    0x7F ≤ 0x7F ∧ (0x80 ≤ 0x80 ∧ 0x7FF ≤ 0x7FF) ∧ (0x800 ≤ 0x800 ∧ 0xFFFF ≤ 0xFFFF ∧ ¬ (0xD800 ≤ 0xFFFF ∧ 0xFFFF ≤ 0xDFFF)) ∧
    (0x10000 ≤ 0x10000 ∧ 0x10FFFF ≤ 0x10FFFF) := by decide

/-- A readout issued while busy; and the last word and the last single byte of 7 bytes. -/
theorem witness_ReadoutReadsAsManyBytesAsOutLenReturned :
    let s : State := { machine (busy hello 1) [.readout 0, .readout 0] with turns := [.host 0] }
    s.turns = [.host 0] ∧ s.hosts[0]? = some [.readout 0, .readout 0] ∧ unitAt s.params 0 = some 0 ∧
    0 < 7 / 4 ∧ 4 * (7 / 4) ≤ 6 ∧ 6 < 7 := by decide

/-- "hello" as the result of a successful command. -/
theorem witness_ReadoutReturnsTheResult :
    let v := (unit [] false).finishOk params hello
    let s := machine v (readoutOps 0 ++ [.readout 0])
    s.inv ∧ s.turns = [] ∧ (∀ w ∈ s.units, w.status.busy = false) ∧ unitAt s.params 0 = some 0 ∧ s.units[0]? = some v ∧
    s.hosts = [readoutOps 0 ++ [.readout 0]] := by decide

end Sys2Proof.Tests
end

section
/-!
SUPPORT. What no step changes about the platform: the parameters (spec/00_scope.md R9) and the number of units
(10_state.md R20). One lemma per agent's turn, then the statement. A turn starts from `s` with an index, a program or the
schedule changed, which `SamePlatform` does not see: `(… :)` states the fact about that start and Lean unifies the two.
-/

namespace Sys2Proof.Machine

/-- `t` is the same platform as `s`: the same parameters (R9) and as many units (R20). -/
abbrev SamePlatform (s t : State) : Prop := t.params = s.params ∧ t.units.length = s.units.length

/-- A transaction or a completion replaces the active unit in its place, so it adds and removes none. -/
theorem samePlatform_of_acted {s t : State} {u : UnitState} (h : Acted s u t) : SamePlatform s t := by
  obtain ⟨rs, n, rfl⟩ := h
  exact ⟨rfl, List.length_set⟩

theorem issue_samePlatform {req : BitVec 53} {s t : State} (h : issue req s = .next t) : SamePlatform s t := by
  obtain ⟨t', u, ht, hact⟩ := issue_next req s
  cases ht.symm.trans h
  exact samePlatform_of_acted hact

theorem complete_samePlatform {w : Word32} {s t : State} (h : complete w s = .next t) : SamePlatform s t := by
  obtain ⟨t', u, ht, hact⟩ := complete_next w s
  cases ht.symm.trans h
  exact samePlatform_of_acted hact

/-- Beside its transaction, a master's turn changes only indices and the masters' programs. -/
theorem hostTurn_samePlatform {m : Nat} {s t : State} (h : hostTurn m s = .next t) : SamePlatform s t := by
  rcases hostTurn_cases m s with ⟨-, e⟩ | ⟨op, rest, -, -, e⟩ | ⟨op, rest, u, t', -, -, ht, e⟩ <;> cases e.symm.trans h
  · exact ⟨rfl, rfl⟩
  · exact (issue_samePlatform ht :)

theorem engineTurn_samePlatform {u : Nat} {s t : State} (h : engineTurn u s = .next t) : SamePlatform s t := by
  rcases engineTurn_cases u s with ⟨-, e⟩ | ⟨v, -, -, e⟩
  · cases e.symm.trans h
    exact ⟨rfl, rfl⟩
  · exact (complete_samePlatform (e.symm.trans h) :)

/-- A reset too puts every unit it resets in its place (R232, R250). -/
theorem takeTurn_samePlatform {a : Turn} {s t : State} (h : takeTurn a s = .next t) : SamePlatform s t := by
  cases a with
  | host m => exact hostTurn_samePlatform h
  | engine u => exact engineTurn_samePlatform h
  | rst u =>
    cases h
    exact ⟨rfl, List.length_set⟩
  | rstAll =>
    cases h
    exact ⟨rfl, List.length_map _⟩

/-- Settles O17, by cases on the turn the step takes. -/
theorem stepsKeepTheParameters : Obligations.StepsKeepTheParameters := by
  unfold Obligations.StepsKeepTheParameters
  intro s t h
  rcases step_cases s with ⟨a, ts, -, e⟩ | ⟨a, -, -, e⟩ | ⟨-, e⟩
  · exact (takeTurn_samePlatform (e.symm.trans h) :)
  · exact (takeTurn_samePlatform (e.symm.trans h) :)
  · cases e.symm.trans h
    exact ⟨rfl, rfl⟩

end Sys2Proof.Machine
end

section
/-!
SUPPORT. Every step keeps the machine in order (spec/10_state.md R26-R29, R35, R39, R41, R42): the two resets here, beside
`hostTurn_inv` and `engineTurn_inv`, then any turn, then the step.
-/

namespace Sys2Proof.Machine

/-- RST puts a unit in the reset state, which is in order (R250, R251). -/
theorem resetUnit_inv {s : State} (h : s.inv) (u : Nat) : (s.resetUnit u).inv := by
  obtain ⟨hp, hn, hact, hall⟩ := h
  refine ⟨hp, List.length_set.trans hn, hact, fun v hv => ?_⟩
  rcases List.mem_or_eq_of_mem_set hv with hv | rfl
  · exact hall v hv
  · exact unit_reset_inv s.params

/-- The platform's reset does so to every unit (R232). -/
theorem resetAll_inv {s : State} (h : s.inv) : s.resetAll.inv := by
  obtain ⟨hp, hn, hact, -⟩ := h
  refine ⟨hp, (List.length_map _).trans hn, hact, fun v hv => ?_⟩
  obtain ⟨-, -, rfl⟩ := List.mem_map.mp hv
  exact unit_reset_inv s.params

theorem takeTurn_inv {a : Turn} {s t : State} (h : s.inv) (he : takeTurn a s = .next t) : t.inv := by
  cases a with
  | host m => exact hostTurn_inv h he
  | engine u => exact engineTurn_inv h he
  | rst u =>
    cases he
    exact resetUnit_inv h u
  | rstAll =>
    cases he
    exact resetAll_inv h

/-- Settles O15, by cases on the turn the step takes; the invariant does not see the schedule, which a scheduled turn
shortens. -/
theorem everyStepKeepsTheInvariant : Obligations.EveryStepKeepsTheInvariant := by
  unfold Obligations.EveryStepKeepsTheInvariant
  intro s t h he
  rcases step_cases s with ⟨a, ts, -, e⟩ | ⟨a, -, -, e⟩ | ⟨-, e⟩
  · exact takeTurn_inv (s := { s with turns := ts }) h (e.symm.trans he)
  · exact takeTurn_inv h (e.symm.trans he)
  · cases e.symm.trans he
    exact h

end Sys2Proof.Machine
end

section
/-!
SUPPORT. The next step after `withFetchWord` (log 4): what `decodeTableWord` reads is what the decoder reads from the same
word, the active unit's window names that unit alone (log 9), and each way of placing a word makes its turn the next one.
-/

namespace Sys2Proof

/-! ## Table words -/

/-- Decoding bytes is reading a packet from them and decoding it. -/
theorem decodeBytes_eq_ok {f : Format} {bs : List Byte} {i : Instr} (h : decodeBytes f bs = .ok i) :
    ∃ q, packetOfBytes f bs = .ok q ∧ decode q = .ok i := by
  unfold decodeBytes at h
  cases hq : packetOfBytes f bs with
  | ok q => exact ⟨q, rfl, by simpa [hq] using h⟩
  | error r => simp [hq] at h

/-- A table word's bytes, in the format its number of bits names, are what `decodeTableWord` decodes. -/
theorem decodeTableWord_eq_some {n w : Nat} {i : Instr} (h : decodeTableWord n w = some i) :
    (if n ≤ 32 then decodeBytes .cmd (bytesOfNat 4 w) else decodeBytes .busreq (bytesOfNat 7 w)) = .ok i := by
  unfold decodeTableWord at h
  generalize (if n ≤ 32 then decodeBytes .cmd (bytesOfNat 4 w) else decodeBytes .busreq (bytesOfNat 7 w)) = r at h ⊢
  cases r with
  | ok j => simpa using h
  | error r => simp at h

/-- The 4 bytes of a table word hold its 32 low bits. -/
theorem packetOfBytes_cmd_bytesOfNat (w : Nat) : packetOfBytes .cmd (bytesOfNat 4 w) = .ok (.cmd (BitVec.ofNat 32 w)) := by
  have hw : BitVec.ofNat 32 (w % 256 ^ 4) = BitVec.ofNat 32 w := BitVec.eq_of_toNat_eq (by simp)
  simp only [packetOfBytes, Machine.bytesOfNat_length, Machine.natOfBytes_bytesOfNat, if_true, hw]

/-- The 7 bytes of a table word hold its 53 low bits, and are a BUSREQ only when no other bit of theirs is set. -/
theorem packetOfBytes_busreq_bytesOfNat {w : Nat} {q : Packet} (h : packetOfBytes .busreq (bytesOfNat 7 w) = .ok q) :
    q = .busreq (BitVec.ofNat 53 w) := by
  have hw : BitVec.ofNat 53 (w % 256 ^ 7) = BitVec.ofNat 53 w :=
    BitVec.eq_of_toNat_eq (by simp only [BitVec.toNat_ofNat]; omega)
  simp only [packetOfBytes, Machine.bytesOfNat_length, Machine.natOfBytes_bytesOfNat, if_true, hw] at h
  split at h
  · injection h with h
    exact h.symm
  · cases h

theorem decode_of_decodeTableWord_cmd {w : Nat} {i : Instr} (h : decodeTableWord 32 w = some i) :
    decode (.cmd (BitVec.ofNat 32 w)) = .ok i := by
  have hb := decodeTableWord_eq_some h
  rw [if_pos (by decide)] at hb
  obtain ⟨q, hq, hd⟩ := decodeBytes_eq_ok hb
  cases (packetOfBytes_cmd_bytesOfNat w).symm.trans hq
  exact hd

theorem decode_of_decodeTableWord_busreq {w : Nat} {i : Instr} (h : decodeTableWord 56 w = some i) :
    decode (.busreq (BitVec.ofNat 53 w)) = .ok i := by
  have hb := decodeTableWord_eq_some h
  rw [if_neg (by decide)] at hb
  obtain ⟨q, hq, hd⟩ := decodeBytes_eq_ok hb
  rwa [packetOfBytes_busreq_bytesOfNat hq] at hd

/-! ## Windows -/

/-- Windows that do not overlap have different bases. -/
theorem nodup_of_allDisjoint {l : List Nat} (h : allDisjoint l = true) : l.Nodup := by
  induction l with
  | nil => exact List.nodup_nil
  | cons a l ih =>
    simp only [allDisjoint, Bool.and_eq_true, List.all_eq_true] at h
    obtain ⟨ha, hl⟩ := h
    refine List.nodup_cons.mpr ⟨fun hmem => ?_, ih hl⟩
    have := ha a hmem
    simp [windowsDisjoint] at this

end Sys2Proof

namespace Sys2Proof.Machine

/-- A unit's own base is the window of that unit and of no other (R9; log 9). -/
theorem unitAt_unitBase {p : Params} (hp : p.wf = true) {u : Nat} (hu : u < p.nUnits) :
    unitAt p (p.unitBase.getD u 0) = some u := by
  obtain ⟨-, -, -, -, hd⟩ := params_wf_bounds hp
  have hlen : u < p.unitBase.length := hu
  rw [List.getD_eq_getElem _ _ hlen]
  refine List.findIdx?_eq_some_iff_getElem.mpr ⟨hlen, by simp, fun j hj => ?_⟩
  have hne : p.unitBase[j] ≠ p.unitBase[u] := fun he => Nat.ne_of_lt hj ((nodup_of_allDisjoint hd).getElem_inj_iff.mp he)
  simpa using hne

/-! ## The turn that comes next -/

/-- A BUSREQ that decodes is issued as its instruction (R84). -/
theorem issue_of_decode {req : BitVec 53} {i : Instr} (h : decode (.busreq req) = .ok i) (s : State) :
    issue req s = exec i s := by
  simp only [issue, h]

/-- A pending word that decodes completes as its instruction (R202). -/
theorem complete_of_decode {w : Word32} {i : Instr} (h : decode (.cmd w) = .ok i) (s : State) :
    complete w s = exec i s := by
  simp only [complete, h]

/-- A scheduled turn is the one the next step takes. -/
theorem step_of_turns {s : State} {a : Turn} {ts : List Turn} (h : s.turns = a :: ts) :
    step s = takeTurn a { s with turns := ts } := by
  simp only [step, turn, h]

/-- The engine of a busy unit completes the unit's pending word (R201). -/
theorem engineTurn_of_busy {s : State} {u : Nat} {v : UnitState} (hv : s.units[u]? = some v)
    (hb : v.status.busy = true) : engineTurn u s = complete v.pendingCmd { s with active := u } := by
  simp only [engineTurn, hv, hb, if_true]

/-- A master's next operation runs on the unit whose window it names (R9, R216). -/
theorem hostTurn_of_head {s : State} {m u : Nat} {op : HostOp} {rest : List HostOp} (hm : s.hosts.getD m [] = op :: rest)
    (hu : unitAt s.params op.window = some u) :
    hostTurn m s = runHostOp op s.hosts { s with master := m, active := u, hosts := s.hosts.set m rest } := by
  simp only [hostTurn, hm, hu]

/-- A placed CMD word completes in the next step, on the active unit, which has just accepted it (R200, R201). -/
theorem step_withCommand {s : State} (hl : s.live) (w : Word32) :
    step (s.withCommand w) = complete w (s.onUnit (.accept w)) := by
  rw [step_of_turns (s := s.withCommand w) rfl]
  have hu : (s.onUnit (.accept w)).units[s.active]? = some (s.unit.accept w) := List.getElem?_set_self hl
  exact engineTurn_of_busy (s := s.onUnit (.accept w)) hu rfl

/-- A placed BUSREQ is issued in the next step by the first master, whose own program is as before (R216). -/
theorem step_withRequest {s : State} (h : s.inv) (hh : s.hosts ≠ []) (req : BitVec 53) :
    step (s.withRequest req) = issue req { s with master := 0 } := by
  obtain ⟨hp, -, hact, -⟩ := h
  obtain ⟨prog, progs, hs⟩ := List.exists_cons_of_ne_nil hh
  rw [step_of_turns (s := s.withRequest req) rfl]
  have hhead : (s.withRequest req).hosts.getD 0 [] = .request (s.params.unitBase.getD s.active 0) req :: prog := by
    simp [State.withRequest, hs, pushOp]
  have hrest : (s.withRequest req).hosts.set 0 prog = s.hosts := by
    simp [State.withRequest, hs, pushOp]
  refine (hostTurn_of_head (s := { s.withRequest req with turns := s.turns }) hhead (unitAt_unitBase hp hact)).trans ?_
  rw [runHostOp_request]
  change issue req { s with master := 0, hosts := (s.withRequest req).hosts.set 0 prog } = _
  rw [hrest]

/-- Settles O8: each of the two formats is placed by its own turn. -/
theorem placedWordIsTheNextStep : Obligations.PlacedWordIsTheNextStep := by
  unfold Obligations.PlacedWordIsTheNextStep
  intro s w i h hh
  have hl : s.live := by
    obtain ⟨-, hn, hact, -⟩ := h
    exact hact.trans_eq hn.symm
  refine ⟨fun hw => ?_, fun hw => ?_⟩
  · exact (step_withCommand hl _).trans (complete_of_decode (decode_of_decodeTableWord_cmd hw) _)
  · exact (step_withRequest h hh _).trans (issue_of_decode (decode_of_decodeTableWord_busreq hw) _)

end Sys2Proof.Machine
end

section
/-!
SUPPORT. What an instruction or a completion leaves alone: the other units (spec/10_state.md R20), and, unless the command is
ZEROIZE, the active unit's inputs (R33, R34, R37, R38).
-/

namespace Sys2Proof.Machine

/-! ## The other units -/

/-- A change of the active unit leaves every other unit as it was. -/
theorem acted_other {s t : State} {u : UnitState} (h : Acted s u t) {v : Nat} (hv : v ≠ s.active) :
    t.units[v]? = s.units[v]? := by
  obtain ⟨rs, n, rfl⟩ := h
  exact setUnit_other s u hv

theorem exec_other {i : Instr} {s t : State} (h : exec i s = .next t) {v : Nat} (hv : v ≠ s.active) :
    t.units[v]? = s.units[v]? := by
  obtain ⟨t', ht, u, hact⟩ := exec_shaped i s
  cases ht.symm.trans h
  exact acted_other hact hv

theorem engineTurn_other {u : Nat} {s t : State} (h : engineTurn u s = .next t) {v : Nat} (hv : v ≠ u) :
    t.units[v]? = s.units[v]? := by
  rcases engineTurn_cases u s with ⟨-, e⟩ | ⟨w, -, -, e⟩
  · cases e.symm.trans h
    rfl
  · obtain ⟨t', x, ht, hact⟩ := complete_next w.pendingCmd { s with active := u }
    cases ht.symm.trans (e.symm.trans h)
    exact acted_other hact hv

/-- Settles O18: both the instruction and the engine change the active unit only, and the engine's is its own. -/
theorem otherUnitsAreUntouched : Obligations.OtherUnitsAreUntouched := by
  unfold Obligations.OtherUnitsAreUntouched
  exact ⟨fun i s t h v hv => exec_other h hv, fun u s t h v hv => engineTurn_other h hv⟩

/-! ## The inputs -/

theorem inputsKept_refl (p : Params) (u : UnitState) : inputsKept p u u := ⟨rfl, rfl, fun _ _ => rfl⟩

/-- `t` is `s` with an active unit whose inputs are those it had. -/
abbrev KeepsInputs (s t : State) : Prop := ∃ u, Acted s u t ∧ inputsKept s.params s.unit u

theorem keepsInputs_setUnit {s : State} {u : UnitState} (h : inputsKept s.params s.unit u) :
    KeepsInputs s (s.setUnit u) := ⟨u, ⟨[], 0, by simp [State.setUnit]⟩, h⟩

theorem keepsInputs_countDraw {s t : State} (h : KeepsInputs s t) : KeepsInputs s t.countDraw := by
  obtain ⟨u, ⟨rs, n, rfl⟩, hu⟩ := h
  exact ⟨u, ⟨rs, n + 1, rfl⟩, hu⟩

/-- A failure writes OUT_BUF only (R221). -/
theorem keepsInputs_err (s : State) (e : CmdError) : KeepsInputs s (s.setUnit (endErr s e)) :=
  keepsInputs_setUnit (raise_ended s.params s.unit e).2.1

/-- A success whose result fits OUT_BUF writes OUT_BUF only (R203). -/
theorem keepsInputs_ok (s : State) {r : List Byte} (hr : r.length ≤ s.params.outCap) :
    KeepsInputs s (s.setUnit (endOk s r)) :=
  keepsInputs_setUnit (finishOk_keeps_inputs s.unit hr)

/-- The ciphertext of an input within MAX_IN fits OUT_BUF (R164). -/
theorem ciphertext_fits {p : Params} {u : UnitState} (h : u.inLen.toNat ≤ p.maxIn) :
    (ciphertext u).length ≤ p.outCap := by
  rw [ciphertext_length, Params.outCap]
  omega

theorem execEncrypt_keepsInputs (s : State) : ∃ t, execEncrypt s = .next t ∧ KeepsInputs s t := by
  rcases execEncrypt_cases s with ⟨-, e⟩ | ⟨-, -, -, e⟩ | ⟨hl, -, -, e⟩ | ⟨hl, -, e⟩
  · exact ⟨_, e, keepsInputs_err s _⟩
  · exact ⟨_, e, keepsInputs_countDraw (keepsInputs_err s _)⟩
  · exact ⟨_, e, keepsInputs_countDraw (keepsInputs_ok s (ciphertext_fits hl))⟩
  · exact ⟨_, e, keepsInputs_ok s (ciphertext_fits hl)⟩

theorem execDecrypt_keepsInputs (s : State) : ∃ t, execDecrypt s = .next t ∧ KeepsInputs s t := by
  rcases execDecrypt_cases s with ⟨-, e⟩ | ⟨-, -, -, e⟩ | ⟨h0, h16, hl, ⟨r, hr, e⟩ | ⟨-, e⟩⟩
  · exact ⟨_, e, keepsInputs_err s _⟩
  · exact ⟨_, e, keepsInputs_err s _⟩
  · have hlen := (unpad_decrypted_length h0 h16 hr).1
    exact ⟨_, e, keepsInputs_ok s (by unfold Params.outCap; omega)⟩
  · exact ⟨_, e, keepsInputs_err s _⟩

/-- The key's 32 bytes fit OUT_BUF, since MAX_IN is at least 16 (R9, R105). -/
theorem execDeriveKey_keepsInputs {s : State} (hp : s.params.wf = true) :
    ∃ t, execDeriveKey s = .next t ∧ KeepsInputs s t := by
  obtain ⟨h16, -, -, -, -⟩ := params_wf_bounds hp
  exact ⟨_, execDeriveKey_eq s, keepsInputs_ok s (by rw [unit_key_length, Params.outCap]; omega)⟩

/-- Any word but ZEROIZE's decodes to one of the other commands or to none (R85). -/
theorem complete_keepsInputs {w : Word32} (hw : w ≠ 0x00000004#32) {s : State} (hp : s.params.wf = true) :
    ∃ t, complete w s = .next t ∧ KeepsInputs s t := by
  rcases complete_cases w s with ⟨i, hd, e⟩ | e <;> rw [e]
  · simp only [decode, decodeCmd] at hd
    split_ifs at hd <;> cases hd
    · exact execEncrypt_keepsInputs s
    · exact execDecrypt_keepsInputs s
    · exact execDeriveKey_keepsInputs hp
  · exact ⟨_, rfl, keepsInputs_err s _⟩

/-- Settles O22, by cases on whether the engine is enabled. -/
theorem onlyZeroizeWritesTheInputs : Obligations.OnlyZeroizeWritesTheInputs := by
  unfold Obligations.OnlyZeroizeWritesTheInputs
  intro u s t v hp hv hw h
  rcases engineTurn_cases u s with ⟨-, e⟩ | ⟨w, hw', -, e⟩
  · cases e.symm.trans h
    exact ⟨v, hv, inputsKept_refl s.params v⟩
  · cases hv.symm.trans hw'
    obtain ⟨t', ht, v', ⟨rs, n, rfl⟩, hk⟩ := complete_keepsInputs hw (s := { s with active := u }) hp
    cases ht.symm.trans (e.symm.trans h)
    have hlt : u < s.units.length := (List.getElem?_eq_some_iff.mp hv).1
    have hunit : State.unit { s with active := u } = v := by simp [State.unit, List.getD, hv]
    exact ⟨v', List.getElem?_set_self hlt, hunit ▸ hk⟩

end Sys2Proof.Machine
end

section
/-!
SUPPORT. The registers: their values after reset (spec/10_state.md R44, R251), the layout of STATUS (R25) and what a write to
it does (R32, 20_memory.md R57).
-/

namespace Sys2Proof.Machine

/-! ## Reset -/

theorem resetWith_unit {p : Params} {u : Nat} (h : u < p.nUnits) : (State.resetWith p).units[u]? = some .reset := by
  simp [State.resetWith, h]

/-- Settles O12: every unit is `UnitState.reset`, whose items are read off one by one. -/
theorem resetLeavesTheSpecifiedState : Obligations.ResetLeavesTheSpecifiedState := by
  unfold Obligations.ResetLeavesTheSpecifiedState
  intro p u h
  exact ⟨.reset, resetWith_unit h, rfl, rfl, rfl, rfl, rfl, read_nil, rfl, rfl, rfl, rfl, rfl, rfl⟩

/-! ## STATUS -/

/-- The error code stands in bits 6:4 (R25). -/
theorem statusWord_err (st : Status) : st.word.extractLsb' 4 3 = st.err := by
  apply BitVec.eq_of_getLsbD_eq
  intro i hi
  simp only [Status.word, BitVec.getLsbD_extractLsb', BitVec.getLsbD_append, Nat.sub_sub]
  simp [hi, Nat.add_comm 4 i]

/-- Bits 31:10 of STATUS read 0 (R32). -/
theorem statusWord_getLsbD_of_ge (st : Status) {i : Nat} (h : 10 ≤ i) : st.word.getLsbD i = false := by
  obtain ⟨k, rfl⟩ := Nat.exists_eq_add_of_le' h
  simp only [Status.word, BitVec.getLsbD_append]
  simp

/-- Settles O28: the error code and the bits above bit 9 by their lemmas, each other field at its own bit. -/
theorem statusWordHasTheTabulatedLayout : Obligations.StatusWordHasTheTabulatedLayout := by
  unfold Obligations.StatusWordHasTheTabulatedLayout
  intro st
  refine ⟨?_, ?_, ?_, ?_, statusWord_err st, ?_, ?_, ?_, fun i hi => statusWord_getLsbD_of_ge st hi⟩
  all_goals
    simp only [Status.word, BitVec.getLsbD_append]
    simp

/-- A 4-byte write to STATUS clears the sticky flags it names, busy or not (R57). -/
theorem memWrite_status (s : State) (v : Word32) :
    memWrite offStatus .b4 v s = s.setUnit { s.unit with status := s.unit.status.clearSticky v } := by
  have hm : malformed s.params offStatus .b4 true = false := wellformed_reg_write s.params (.inr (.inl rfl))
  simp [memWrite, onUnit_eq, UnitState.memWrite, hm]

theorem clearSticky_accErr (v : Word32) (st : Status) :
    (st.clearSticky v).accErr = if v.getLsbD 8 then false else st.accErr := by
  simp [Status.clearSticky, Bool.and_comm]

theorem clearSticky_busyViol (v : Word32) (st : Status) :
    (st.clearSticky v).busyViol = if v.getLsbD 9 then false else st.busyViol := by
  simp [Status.clearSticky, Bool.and_comm]

/-- Settles O33: the write is `clearSticky`, and the reserved bits read 0 in every STATUS (O28). -/
theorem statusWritesClearTheStickyFlags : Obligations.StatusWritesClearTheStickyFlags := by
  unfold Obligations.StatusWritesClearTheStickyFlags
  intro s v
  obtain ⟨-, -, -, h3, -, h7, -, -, h10⟩ := statusWordHasTheTabulatedLayout (s.unit.status.clearSticky v)
  exact ⟨_, congrArg Host.Outcome.next (memWrite_status s v), clearSticky_accErr v _, clearSticky_busyViol v _, rfl, rfl, rfl, rfl,
    h3, h7, h10⟩

end Sys2Proof.Machine
end

section
/-!
SUPPORT. The map of the window (spec/20_memory.md R51): the holes beside the regions `Laws/Ops` characterises, and that every
boundary of the map is a multiple of 4, so that no aligned access crosses one (R53).
-/

namespace Sys2Proof.Machine

/-- The four holes of the map. -/
theorem region_eq_unmapped {p : Params} {off : Nat} (hp : p.maxIn ≤ 65520) : region p off = .unmapped ↔
    (0x1C ≤ off ∧ off ≤ 0x1F) ∨ (0x40 ≤ off ∧ off ≤ 0xFFFF) ∨ (inBase + p.maxIn ≤ off ∧ off ≤ 0x1FFFF) ∨
      outBase + p.outCap ≤ off := by
  have hb := bases
  unfold region
  split_ifs <;> simp only [true_iff, false_iff] <;> omega

/-- Settles O23, a region at a time. -/
theorem windowMapIsAsTabulated : Obligations.WindowMapIsAsTabulated := by
  unfold Obligations.WindowMapIsAsTabulated
  intro p off hp
  obtain ⟨-, hmax, -, -, -⟩ := params_wf_bounds hp
  exact ⟨region_eq_reg, region_eq_pass, region_eq_inp, region_eq_out hmax, region_eq_unmapped hmax⟩

/-- The map does not tell apart two offsets of one 4-byte word, since MAX_IN and OUT_CAP are multiples of 4. -/
theorem region_eq_of_same_word {p : Params} (hp : p.wf = true) {a b : Nat} (h : b / 4 = a / 4) : region p b = region p a := by
  obtain ⟨-, hmax, h16, -, -⟩ := params_wf_bounds hp
  have hb := bases
  have hc : p.outCap = p.maxIn + 16 := rfl
  cases hr : region p a with
  | reg =>
    rw [region_eq_reg] at hr ⊢
    omega
  | pass =>
    rw [region_eq_pass] at hr ⊢
    omega
  | inp =>
    rw [region_eq_inp] at hr ⊢
    omega
  | out =>
    rw [region_eq_out hmax] at hr ⊢
    omega
  | unmapped =>
    rw [region_eq_unmapped hmax] at hr ⊢
    omega

/-- Every byte of an aligned access is in the 4-byte word of its first. -/
theorem aligned_same_word {off i : Nat} {w : Width} (hal : off % w.bytes = 0) (hi : i < w.bytes) : (off + i) / 4 = off / 4 := by
  cases w <;> simp only [Width.bytes] at hal hi <;> omega

/-- Settles O24: an aligned access stays in one 4-byte word, and so in one region. -/
theorem alignedAccessesStayInOneRegion : Obligations.AlignedAccessesStayInOneRegion := by
  unfold Obligations.AlignedAccessesStayInOneRegion
  intro p off w i hp hal hi
  exact region_eq_of_same_word hp (aligned_same_word hal hi)

end Sys2Proof.Machine
end

section
/-!
SUPPORT. The instruction of an access, by its width: a read is one MemRead and a write one MemWrite (spec/45_host_access.md
R210-R215).
-/

namespace Sys2Proof.Machine

/-- The read of a width (R210-R212). -/
def readInstr : Width → Offset → Instr
  | .b1 => .rd8
  | .b2 => .rd16
  | .b4 => .rd32

/-- The write of a width (R213-R215). -/
def writeInstr : Width → Offset → Word32 → Instr
  | .b1 => .wr8
  | .b2 => .wr16
  | .b4 => .wr32

theorem exec_readInstr (w : Width) (off : Offset) (s : State) : exec (readInstr w off) s = .next (memRead off.toNat w s) := by
  cases w <;> rfl

theorem exec_writeInstr (w : Width) (off : Offset) (v : Word32) (s : State) :
    exec (writeInstr w off v) s = .next (memWrite off.toNat w v s) := by
  cases w <;> rfl

end Sys2Proof.Machine
end

section
/-!
SUPPORT. Malformed accesses (spec/20_memory.md R54): when an access is one, and what MemRead, MemWrite and a BUSREQ with
SIZE = 11 then do (R222).
-/

namespace Sys2Proof.Machine

/-- Conditions 2 to 4 of R54, and condition 5 of a write. -/
theorem malformed_iff {p : Params} {off : Nat} {w : Width} {we : Bool} : malformed p off w we = true ↔
    off % w.bytes ≠ 0 ∨ region p off = .unmapped ∨ (region p off = .reg ∧ w ≠ .b4) ∨
      (we = true ∧ (off = offId ∨ off = offCaps ∨ off = offOutLen ∨ region p off = .out)) := by
  simp only [malformed, readOnly, Bool.or_eq_true, Bool.and_eq_true, decide_eq_true_eq, or_assoc]

/-- A malformed read answers 0 and sets ACC_ERR. -/
theorem memRead_malformed {s : State} {off : Nat} {w : Width} (h : malformed s.params off w false = true) :
    memRead off w s = (s.onUnit .flagAccErr).respond 0 := if_pos h

/-- A malformed write sets ACC_ERR and stores nothing. -/
theorem memWrite_malformed {s : State} {off : Nat} {w : Width} (h : malformed s.params off w true = true) (v : Word32) :
    memWrite off w v s = s.onUnit .flagAccErr :=
  congrArg s.setUnit (if_pos h)

/-- SIZE = 11 is the two bits 51:50. -/
theorem fieldSize_eq_three {req : BitVec 53} (h51 : req.getLsbD 51 = true) (h50 : req.getLsbD 50 = true) :
    fieldSize req = 0b11#2 := by
  apply BitVec.eq_of_getLsbD_eq
  intro i hi
  have hi : i = 0 ∨ i = 1 := by omega
  rcases hi with rfl | rfl <;> simp [fieldSize, h50, h51]

/-- A BUSREQ with SIZE = 11 is a malformed access (R54 condition 1, R84). -/
theorem issue_of_reservedSize {req : BitVec 53} (h51 : req.getLsbD 51 = true) (h50 : req.getLsbD 50 = true) (s : State) :
    issue req s = .next (malformedSize (req.getLsbD 52) s) := by
  simp [issue, decode, decodeBusreq, fieldSize_eq_three h51 h50, fieldWe]

/-- Settles O25: each clause's conditions make its access malformed. -/
theorem malformedAccessesOnlySetAccErr : Obligations.MalformedAccessesOnlySetAccErr := by
  unfold Obligations.MalformedAccessesOnlySetAccErr
  rintro s off v req t rfl
  have read : ∀ w, malformed s.params off.toNat w false = true →
      exec (readInstr w off) s = .next ((s.onUnit .flagAccErr).respond 0) :=
    fun w h => (exec_readInstr w off s).trans (congrArg _ (memRead_malformed h))
  have write : ∀ w, malformed s.params off.toNat w true = true →
      exec (writeInstr w off v) s = .next (s.onUnit .flagAccErr) :=
    fun w h => (exec_writeInstr w off v s).trans (congrArg _ (memWrite_malformed h v))
  refine ⟨⟨fun h => read .b1 ?_, fun h => read .b2 ?_, fun h => read .b4 ?_, fun h51 h50 h52 => ?size11Read⟩,
    ⟨fun h => write .b1 ?_, fun h => write .b2 ?_, fun h => write .b4 ?_, fun h51 h50 h52 => ?size11Write⟩⟩
  case size11Read | size11Write =>
    rw [issue_of_reservedSize h51 h50, h52]
    rfl
  all_goals
    rw [malformed_iff]
    simp only [Width.bytes]
    tauto

end Sys2Proof.Machine
end

section
/-!
SUPPORT. Well-formed reads (spec/20_memory.md R55, R57, R59, R61): the words of one, two and four bytes, a register by its
offset, and the draws of a read while busy.
-/

namespace Sys2Proof.Machine

/-! ## Buffers and registers -/

/-- The word of a byte (R55). -/
theorem readWord_one (m : Memory) (a : Nat) : Memory.readWord m a 1 = BitVec.ofNat 32 (Memory.read m a).toNat := by
  simp [Memory.readWord, Memory.slice, natOfBytes]

/-- The word of two bytes, the lower offset lower (R55). -/
theorem readWord_two (m : Memory) (a : Nat) : Memory.readWord m a 2 =
    BitVec.ofNat 32 ((Memory.read m a).toNat + (Memory.read m (a + 1)).toNat * 2 ^ 8) := by
  simp only [Memory.readWord, Memory.slice, List.range_succ, List.range_zero, List.nil_append, List.cons_append, List.map_cons,
    List.map_nil, natOfBytes, Nat.add_zero]
  congr 1
  ring

/-- The word of four bytes (R55). -/
theorem readWord_four (m : Memory) (a : Nat) : Memory.readWord m a 4 =
    BitVec.ofNat 32 ((Memory.read m a).toNat + (Memory.read m (a + 1)).toNat * 2 ^ 8 +
      (Memory.read m (a + 2)).toNat * 2 ^ 16 + (Memory.read m (a + 3)).toNat * 2 ^ 24) := by
  simp only [Memory.readWord, Memory.slice, List.range_succ, List.range_zero, List.nil_append, List.cons_append, List.map_cons,
    List.map_nil, natOfBytes, Nat.add_zero]
  congr 1
  ring

/-- Settles O26: an aligned read of a buffer answers the word of its bytes. -/
theorem bufferReadsAreLittleEndian : Obligations.BufferReadsAreLittleEndian := by
  unfold Obligations.BufferReadsAreLittleEndian
  intro s off h
  have buffer : ∀ w : Width, off.toNat % w.bytes = 0 →
      exec (readInstr w off) s = .next (s.respond (Memory.readWord s.unit.mem off.toNat w.bytes)) :=
    fun w hal => (exec_readInstr w off s).trans (congrArg _ (memRead_buffer hal h))
  rw [← readWord_one, ← readWord_two, ← readWord_four]
  exact ⟨buffer .b1 (Nat.mod_one _), buffer .b2, buffer .b4⟩

/-- Settles O27: each register at its offset; only OUT_LEN can be a draw. -/
theorem registerReadsReturnTheRegister : Obligations.RegisterReadsReturnTheRegister := by
  unfold Obligations.RegisterReadsReturnTheRegister
  intro s
  have reg : ∀ off : Offset, off.toNat < 0x1C → off.toNat % 4 = 0 →
      (off.toNat = offOutLen → s.unit.status.busy = false) →
      exec (.rd32 off) s = .next (s.respond (regValue s.params s.unit off.toNat)) :=
    fun off h hal hb => congrArg _ (memRead_reg h hal hb)
  have notOutLen : ∀ off : Offset, off.toNat < 0x18 → off.toNat % 4 = 0 →
      exec (.rd32 off) s = .next (s.respond (regValue s.params s.unit off.toNat)) :=
    fun off h hal => reg off (by omega) hal fun ho => absurd ho (Nat.ne_of_lt h)
  exact ⟨notOutLen 0x00 (by decide) (by decide), notOutLen 0x04 (by decide) (by decide), notOutLen 0x08 (by decide) (by decide),
    notOutLen 0x0C (by decide) (by decide), notOutLen 0x10 (by decide) (by decide), notOutLen 0x14 (by decide) (by decide),
    fun hb => reg 0x18 (by decide) (by decide) fun _ => hb⟩

/-! ## Draws -/

/-- A draw of four bytes is the whole free value. -/
theorem drawWord_b4 (n : Nat) : drawWord .b4 n = Config.freeWord n :=
  BitVec.eq_of_toNat_eq (by simp [drawWord, Width.bytes, (Config.freeWord n).isLt])

/-- A well-formed read of OUT_LEN while busy is a draw (R59). -/
theorem memRead_outLen_busy {s : State} (hb : s.unit.status.busy = true) :
    memRead offOutLen .b4 s = (s.respond (drawWord .b4 s.draws)).countDraw := by
  have hr : region s.params offOutLen = .reg := region_eq_reg.mpr (by decide)
  have hm : malformed s.params offOutLen .b4 false = false := by simp [malformed, hr, Width.bytes, offOutLen]
  unfold memRead
  rw [if_neg (by simp [hm]), if_pos hr, if_pos ⟨rfl, hb⟩]

/-- Settles O29: OUT and OUT_LEN answer a draw of the access width. -/
theorem outputReadsWhileBusyAreDraws : Obligations.OutputReadsWhileBusyAreDraws := by
  unfold Obligations.OutputReadsWhileBusyAreDraws
  intro s off hb
  have out : ∀ w : Width, region s.params off.toNat = .out → off.toNat % w.bytes = 0 →
      exec (readInstr w off) s = .next (s.respond (drawWord w s.draws)).countDraw :=
    fun w hr hal => (exec_readInstr w off s).trans (congrArg _ (memRead_out_busy hal hr hb))
  refine ⟨fun hr => ⟨out .b1 hr (Nat.mod_one _), out .b2 hr, fun hal => ?_⟩, fun ho => ?_⟩ <;> rw [← drawWord_b4]
  · exact out .b4 hr hal
  · have hread : memRead off.toNat .b4 s = (s.respond (drawWord .b4 s.draws)).countDraw := ho ▸ memRead_outLen_busy hb
    exact congrArg _ hread

/-! ## The frame -/

/-- Settles O30, by what MemRead can do: flag, draw or answer. -/
theorem readsHaveNoSideEffect : Obligations.ReadsHaveNoSideEffect := by
  unfold Obligations.ReadsHaveNoSideEffect
  intro off w i s t hi h
  have hi : i = readInstr w off := by rcases hi with ⟨rfl, rfl⟩ | ⟨rfl, rfl⟩ | ⟨rfl, rfl⟩ <;> rfl
  subst hi
  cases (exec_readInstr w off s).symm.trans h
  rcases memRead_cases off.toNat w s with ⟨hm, e⟩ | ⟨hm, -, v, e⟩ | ⟨hm, v, e⟩ <;> rw [e, hm]
  · exact ⟨nofun, fun _ => rfl, rfl, rfl, rfl, rfl, rfl, 0, rfl⟩
  · exact ⟨fun _ => rfl, nofun, rfl, rfl, rfl, rfl, rfl, v, rfl⟩
  · exact ⟨fun _ => rfl, nofun, rfl, rfl, rfl, rfl, rfl, v, rfl⟩

end Sys2Proof.Machine
end

section
/-!
SUPPORT. Well-formed writes (spec/20_memory.md R56-R58): a length register and a buffer while idle, and that a busy unit drops
every write but STATUS's (R223).
-/

namespace Sys2Proof.Machine

/-- A write to PASS_LEN while idle (R57). -/
theorem memWrite_passLen {s : State} (hb : s.unit.status.busy = false) (v : Word32) :
    memWrite offPassLen .b4 v s = s.setUnit { s.unit with passLen := v } := by
  have hm : malformed s.params offPassLen .b4 true = false := wellformed_reg_write s.params (.inr (.inr (.inl rfl)))
  simp [memWrite, onUnit_eq, UnitState.memWrite, hm, hb]

/-- A write to IN_LEN while idle (R57). -/
theorem memWrite_inLen {s : State} (hb : s.unit.status.busy = false) (v : Word32) :
    memWrite offInLen .b4 v s = s.setUnit { s.unit with inLen := v } := by
  have hm : malformed s.params offInLen .b4 true = false := wellformed_reg_write s.params (.inr (.inr (.inr rfl)))
  simp [memWrite, onUnit_eq, UnitState.memWrite, hm, hb]

/-- A well-formed write while busy, STATUS apart, sets BUSY_VIOL and stores nothing (R58). -/
theorem memWrite_busy {s : State} {off : Nat} {w : Width} (hm : malformed s.params off w true = false) (ho : off ≠ offStatus)
    (hb : s.unit.status.busy = true) (v : Word32) : memWrite off w v s = s.onUnit .flagBusyViol := by
  simp only [memWrite, onUnit_eq, UnitState.memWrite, hm, ho, hb, if_true, if_false, Bool.false_eq_true]

/-- Settles O32, a register at a time. -/
theorem lengthRegisterWritesTakeTheValue : Obligations.LengthRegisterWritesTakeTheValue := by
  unfold Obligations.LengthRegisterWritesTakeTheValue
  intro s v hb
  exact ⟨congrArg Host.Outcome.next (memWrite_passLen hb v), congrArg Host.Outcome.next (memWrite_inLen hb v)⟩

/-- Settles O34: each guarded target is well-formed and is not STATUS. -/
theorem guardedWritesWhileBusyAreDropped : Obligations.GuardedWritesWhileBusyAreDropped := by
  unfold Obligations.GuardedWritesWhileBusyAreDropped
  rintro s off v t hb rfl
  have ho := offsets
  have dropped : ∀ w : Width, malformed s.params off.toNat w true = false → off.toNat ≠ offStatus →
      exec (writeInstr w off v) s = .next (s.onUnit .flagBusyViol) :=
    fun w hm hne => (exec_writeInstr w off v s).trans (congrArg _ (memWrite_busy hm hne hb v))
  refine ⟨fun hreg => ?_, fun hbuf => ?_⟩
  · exact dropped .b4 (wellformed_reg_write s.params (by omega)) (by omega)
  · have buffer : ∀ w : Width, off.toNat % w.bytes = 0 →
        exec (writeInstr w off v) s = .next (s.onUnit .flagBusyViol) := by
      intro w hal
      obtain ⟨hm, hge⟩ := wellformed_buffer_write hal hbuf
      exact dropped w hm (by omega)
    exact ⟨buffer .b1 (Nat.mod_one _), buffer .b2, buffer .b4⟩

/-- Settles O31: the memory after the write is the word store, of which each byte and each byte outside is known. -/
theorem bufferWritesStoreLittleEndian : Obligations.BufferWritesStoreLittleEndian := by
  unfold Obligations.BufferWritesStoreLittleEndian
  intro s off v hwf hb hr
  have stored : ∀ w : Width, off.toNat % w.bytes = 0 → exec (writeInstr w off v) s =
      .next (s.setUnit { s.unit with mem := Memory.writeWord s.unit.mem off.toNat w.bytes v }) :=
    fun w hal => (exec_writeInstr w off v s).trans (congrArg _ (memWrite_buffer v hal hr hb))
  have byte : ∀ n i, i < n →
      Memory.read (Memory.writeWord s.unit.mem off.toNat n v) (off.toNat + i) = v.extractLsb' (8 * i) 8 :=
    fun n i hi => read_writeWord hwf off.toNat n v hi
  refine ⟨⟨_, stored .b1 (Nat.mod_one _), ?_, ?_⟩, fun hal => ⟨_, stored .b2 hal, ?_, ?_, ?_⟩,
    fun hal => ⟨_, stored .b4 hal, ?_, ?_, ?_, ?_, ?_⟩⟩
  · exact byte 1 0 (by decide)
  · exact fun a ha => read_writeWord_other ha
  · exact byte 2 0 (by decide)
  · exact byte 2 1 (by decide)
  · exact fun a ha => read_writeWord_other ha
  · exact byte 4 0 (by decide)
  · exact byte 4 1 (by decide)
  · exact byte 4 2 (by decide)
  · exact byte 4 3 (by decide)
  · exact fun a ha => read_writeWord_other ha

end Sys2Proof.Machine
end

section
/-!
SUPPORT. What no host transaction can touch: the command in flight of a busy unit (spec/20_memory.md R58, 10_state.md R26-R29).
-/

namespace Sys2Proof.Machine

/-- The active unit is the unit at the active index. -/
theorem unit_eq_of_getElem? {s : State} {v : UnitState} (h : s.units[s.active]? = some v) : s.unit = v := by
  simp [State.unit, List.getD, h]

/-- `u'` is `u` but for its sticky flags and working registers: the command in flight, its inputs and its result stand. -/
abbrev InFlightKept (u u' : UnitState) : Prop :=
  u'.pendingCmd = u.pendingCmd ∧ u'.passLen = u.passLen ∧ u'.inLen = u.inLen ∧ u'.outLen = u.outLen ∧ u'.mem = u.mem ∧
    u'.status.busy = true ∧ u'.status.done = u.status.done ∧ u'.status.valid = u.status.valid ∧ u'.status.err = u.status.err

theorem inFlightKept_refl {u : UnitState} (hb : u.status.busy = true) : InFlightKept u u :=
  ⟨rfl, rfl, rfl, rfl, rfl, hb, rfl, rfl, rfl⟩

theorem inFlightKept_flagAccErr {u : UnitState} (hb : u.status.busy = true) : InFlightKept u u.flagAccErr :=
  ⟨rfl, rfl, rfl, rfl, rfl, hb, rfl, rfl, rfl⟩

/-- A write to a busy unit changes its sticky flags at most (R57, R58). -/
theorem inFlightKept_memWrite {u : UnitState} (hb : u.status.busy = true) (p : Params) (off : Nat) (w : Width) (v : Word32) :
    InFlightKept u (u.memWrite p off w v) := by
  have idle : ¬ u.status.busy = false := by simp [hb]
  rcases unit_memWrite_cases p off w v u with ⟨-, e⟩ | ⟨-, -, e⟩ | ⟨-, -, -, e⟩ | ⟨-, -, h, -⟩ | ⟨-, -, h, -⟩ | ⟨-, -, h, -⟩ |
    ⟨-, -, h, -⟩
  · exact e ▸ inFlightKept_flagAccErr hb
  · exact e ▸ ⟨rfl, rfl, rfl, rfl, rfl, hb, rfl, rfl, rfl⟩
  · exact e ▸ ⟨rfl, rfl, rfl, rfl, rfl, hb, rfl, rfl, rfl⟩
  all_goals exact absurd h idle

/-- `t` is `s` with an active unit whose command in flight stands. -/
abbrev KeepsInFlight (s t : State) : Prop := ∃ u, Acted s u t ∧ InFlightKept s.unit u

theorem memRead_keepsInFlight {s : State} (hb : s.unit.status.busy = true) (off : Nat) (w : Width) :
    KeepsInFlight s (memRead off w s) := by
  rcases memRead_cases off w s with ⟨-, e⟩ | ⟨-, -, v, e⟩ | ⟨-, v, e⟩ <;> rw [e]
  · exact ⟨s.unit.flagAccErr, ⟨[⟨s.master, 0⟩], 0, rfl⟩, inFlightKept_flagAccErr hb⟩
  · exact ⟨s.unit, ⟨[⟨s.master, v⟩], 1, by rw [setUnit_unit]; rfl⟩, inFlightKept_refl hb⟩
  · exact ⟨s.unit, ⟨[⟨s.master, v⟩], 0, by rw [setUnit_unit]; rfl⟩, inFlightKept_refl hb⟩

theorem memWrite_keepsInFlight {s : State} (hb : s.unit.status.busy = true) (off : Nat) (w : Width) (v : Word32) :
    KeepsInFlight s (memWrite off w v s) :=
  ⟨_, ⟨[], 0, by simp [memWrite, onUnit_eq, State.setUnit]⟩, inFlightKept_memWrite hb s.params off w v⟩

/-- A BUSREQ is one MemRead, one MemWrite, or a malformed access (R84, R210-R215). -/
theorem issue_access_cases (req : BitVec 53) (s : State) :
    (∃ off w, issue req s = .next (memRead off w s)) ∨ (∃ off w v, issue req s = .next (memWrite off w v s)) ∨
      issue req s = .next (malformedSize (fieldWe req) s) := by
  rcases issue_cases req s with ⟨i, hd, e⟩ | e
  · simp only [decode, decodeBusreq] at hd
    split_ifs at hd <;> cases hd
    · exact .inr (.inl ⟨_, .b1, _, e⟩)
    · exact .inl ⟨_, .b1, e⟩
    · exact .inr (.inl ⟨_, .b2, _, e⟩)
    · exact .inl ⟨_, .b2, e⟩
    · exact .inr (.inl ⟨_, .b4, _, e⟩)
    · exact .inl ⟨_, .b4, e⟩
  · exact .inr (.inr e)

theorem issue_keepsInFlight {req : BitVec 53} {s t : State} (hb : s.unit.status.busy = true) (h : issue req s = .next t) :
    KeepsInFlight s t := by
  rcases issue_access_cases req s with ⟨off, w, e⟩ | ⟨off, w, v, e⟩ | e <;> cases e.symm.trans h
  · exact memRead_keepsInFlight hb off w
  · exact memWrite_keepsInFlight hb off w v
  · exact ⟨_, shaped_malformedSize _ s, inFlightKept_flagAccErr hb⟩

/-- A BUSREQ changes no unit but the active one (R20). -/
theorem issue_other {req : BitVec 53} {s t : State} (h : issue req s = .next t) {x : Nat} (hx : x ≠ s.active) :
    t.units[x]? = s.units[x]? := by
  obtain ⟨t', u, ht, hact⟩ := issue_next req s
  cases ht.symm.trans h
  exact acted_other hact hx

/-- Settles O20: the unit is the one the master addresses, whose BUSREQ keeps what is in flight, or another. -/
theorem hostsCannotTouchACommandInFlight : Obligations.HostsCannotTouchACommandInFlight := by
  unfold Obligations.HostsCannotTouchACommandInFlight
  intro m s t x u h hu hb
  rcases hostTurn_cases m s with ⟨-, e⟩ | ⟨op, rest, -, -, e⟩ | ⟨op, rest, y, t', -, -, ht, e⟩ <;> cases e.symm.trans h
  · exact ⟨u, hu, inFlightKept_refl hb⟩
  · by_cases hxy : x = y
    · subst hxy
      have hunit : State.unit { s with master := m, active := x, hosts := s.hosts.set m rest } = u := unit_eq_of_getElem? hu
      obtain ⟨u', ⟨rs, n, rfl⟩, hk⟩ := issue_keepsInFlight (by rwa [hunit]) ht
      have hlt : x < s.units.length := (List.getElem?_eq_some_iff.mp hu).1
      exact ⟨u', List.getElem?_set_self hlt, hunit ▸ hk⟩
    · exact ⟨u, (issue_other ht hxy).trans hu, inFlightKept_refl hb⟩

end Sys2Proof.Machine
end

section
/-!
SUPPORT. Completions on different units (spec/20_memory.md R62): where no CIPHER_FAILURE draw can be made, a completion is a
function of the parameters and of the unit it ends on, so an engine's turn modifies its own place in the list of units, and
modifications of different places commute.
-/

namespace Sys2Proof.Machine

/-- From every state with these parameters, `f` puts in the active unit's place a unit that depends on that unit alone. -/
abbrev ActsLocally (p : Params) (f : State → Host.Outcome State Fault Refusal) : Prop :=
  ∀ v, ∃ v', ∀ s : State, s.params = p → s.unit = v → f s = .next (s.setUnit v')

theorem execEncrypt_actsLocally {p : Params} (hf : p.cipherFaultPossible = false) : ActsLocally p execEncrypt := by
  intro v
  by_cases hl : p.maxIn < v.inLen.toNat
  · refine ⟨(v.raiseCmdError p .lengthExceeded).scrub, ?_⟩
    rintro s rfl rfl
    simp [execEncrypt, hl, fail_eq]
  · refine ⟨(v.finishOk p (ciphertext v)).scrub, ?_⟩
    rintro s rfl rfl
    simp [execEncrypt, hl, hf, encryptInput_eq]

theorem execDecrypt_actsLocally (p : Params) : ActsLocally p execDecrypt := by
  intro v
  by_cases h16 : v.inLen.toNat = 0 ∨ v.inLen.toNat % 16 ≠ 0
  · refine ⟨(v.raiseCmdError p .invalidCiphertextLength).scrub, ?_⟩
    rintro s rfl rfl
    simp only [execDecrypt, h16, if_true, fail_eq]
  by_cases hl : p.maxIn < v.inLen.toNat
  · refine ⟨(v.raiseCmdError p .lengthExceeded).scrub, ?_⟩
    rintro s rfl rfl
    simp only [execDecrypt, h16, hl, if_true, if_false, fail_eq]
  have live : ∀ s : State, s.unit = v → s.live :=
    fun s hs => by_contra fun h => h16 (.inl (by rw [← hs, unit_of_not_live h]; rfl))
  cases hu : unpad (decrypted v) with
  | some r =>
    refine ⟨(v.finishOk p r).scrub, ?_⟩
    rintro s rfl rfl
    simp only [execDecrypt, h16, hl, if_false, decryptInput_eq (live s rfl), hu]
  | none =>
    refine ⟨(v.raiseCmdError p .paddingValidationFailure).scrub, ?_⟩
    rintro s rfl rfl
    simp only [execDecrypt, h16, hl, if_false, decryptInput_eq (live s rfl), hu]

theorem execDeriveKey_actsLocally (p : Params) : ActsLocally p execDeriveKey := by
  refine fun v => ⟨(v.finishOk p v.key).scrub, ?_⟩
  rintro s rfl rfl
  exact execDeriveKey_eq s

theorem execZeroize_actsLocally (p : Params) : ActsLocally p execZeroize := by
  refine fun v => ⟨((v.clearInputs p).finishOk p []).scrub, ?_⟩
  rintro s rfl rfl
  exact execZeroize_eq s

/-- Any pending word decodes to one of the four commands or is ILLEGAL (R202). -/
theorem complete_actsLocally {p : Params} (hf : p.cipherFaultPossible = false) (w : Word32) : ActsLocally p (complete w) := by
  cases hd : decode (.cmd w) with
  | ok i =>
    have hc : complete w = exec i := funext (complete_of_decode hd)
    rw [hc]
    simp only [decode, decodeCmd] at hd
    split_ifs at hd <;> cases hd
    · exact execEncrypt_actsLocally hf
    · exact execDecrypt_actsLocally p
    · exact execDeriveKey_actsLocally p
    · exact execZeroize_actsLocally p
  | error r =>
    refine fun v => ⟨(v.raiseCmdError p .illegalCommand).scrub, ?_⟩
    rintro s rfl rfl
    simp only [complete, hd, fail_eq]

/-- What an engine's turn leaves in its unit's place is one function of that unit, the same for all units: the completion of
a busy unit, and an idle one as it is (R201). -/
theorem engineTurn_modifies {p : Params} (hf : p.cipherFaultPossible = false) : ∃ f : UnitState → UnitState,
    ∀ (u : Nat) (s t : State), s.params = p → engineTurn u s = .next t → t.units = s.units.modify u f := by
  choose g hg using complete_actsLocally hf
  refine ⟨fun v => if v.status.busy then g v.pendingCmd v else v, fun u s t hp h => ?_⟩
  rcases engineTurn_cases u s with ⟨hnone | ⟨v, hv, hb⟩, e⟩ | ⟨v, hv, hb, e⟩
  all_goals rw [List.modify_eq_set_getElem?]
  · cases e.symm.trans h
    rw [hnone]
    rfl
  · cases e.symm.trans h
    obtain ⟨hlt, rfl⟩ := List.getElem?_eq_some_iff.mp hv
    simp [hlt, hb]
  · cases (hg v.pendingCmd v { s with active := u } hp (unit_eq_of_getElem? hv)).symm.trans (e.symm.trans h)
    simp [hv, hb]

/-- Settles O19: the two turns modify different places. -/
theorem completionsOfDifferentUnitsCommute : Obligations.CompletionsOfDifferentUnitsCommute := by
  unfold Obligations.CompletionsOfDifferentUnitsCommute
  intro s a b ab ba u v hf huv ha hab hb hba
  obtain ⟨f, hmod⟩ := engineTurn_modifies hf
  have hpa : a.params = s.params := (engineTurn_samePlatform ha).1
  have hpb : b.params = s.params := (engineTurn_samePlatform hb).1
  rw [hmod v a ab hpa hab, hmod u s a rfl ha, hmod u b ba hpb hba, hmod v s b rfl hb, List.modify_modify_ne f f s.units huv]

end Sys2Proof.Machine
end

section
/-!
SUPPORT. The formats of spec/30_encoding.md: the bytes of an instruction hold its word; a BUSREQ decodes exactly when its SIZE
is that of a width, and then to the access of that width (R82, R83); and which words neither format takes (R84, R85).
-/

namespace Sys2Proof.Machine

/-! ## Words and bytes -/

/-- Decoding undoes encoding, on words (R83, R91). -/
theorem decode_encode (i : Instr) : decode (encode i) = .ok i := by
  cases i with
  | encrypt | decrypt | deriveKey | zeroize => rfl
  | rd8 | rd16 | rd32 | wr8 | wr16 | wr32 => simp [encode, decode, decodeBusreq_pack]

/-- The 7 bytes of a BUSREQ hold that BUSREQ (log 16). -/
theorem packetOfBytes_busreq_toNat (w : BitVec 53) : packetOfBytes .busreq (bytesOfNat 7 w.toNat) = .ok (.busreq w) := by
  simp [packetOfBytes, natOfBytes_bytes 7 w (by decide), w.isLt]

/-- The bytes of an instruction hold its word, in its format (log 16). -/
theorem packetOfBytes_encodeBytes (i : Instr) : packetOfBytes i.format (encodeBytes i) = .ok (encode i) := by
  cases i with
  | encrypt | decrypt | deriveKey | zeroize => exact packetOfBytes_cmd_bytesOfNat _
  | rd8 | rd16 | rd32 | wr8 | wr16 | wr32 => exact packetOfBytes_busreq_toNat _

/-- Settles O1: the bytes hold the instruction's word, which decodes to the instruction. -/
theorem everyInstructionRoundTripsThroughBytes : Obligations.EveryInstructionRoundTripsThroughBytes := by
  unfold Obligations.EveryInstructionRoundTripsThroughBytes
  intro i
  simp only [decodeBytes, packetOfBytes_encodeBytes, decode_encode]

/-! ## CMD words -/

/-- A CMD word decodes to the instructions that encode to it (R83, R85). -/
theorem decode_cmd_eq_ok_iff {w : BitVec 32} {i : Instr} : decode (.cmd w) = .ok i ↔ encode i = .cmd w := by
  refine ⟨fun h => ?_, fun h => h ▸ decode_encode i⟩
  simp only [decode, decodeCmd] at h
  split_ifs at h with h1 h2 h3 h4 <;> cases h
  · rw [h1]; rfl
  · rw [h2]; rfl
  · rw [h3]; rfl
  · rw [h4]; rfl

/-- The mask of a CMD row is the whole word (R83). -/
theorem cmd_row_iff {i : Instr} {v : BitVec 32} (h : encode i = .cmd v) (w : BitVec 32) :
    w &&& 0xFFFFFFFF#32 = v ↔ decode (.cmd w) = .ok i := by
  have hmask : w &&& 0xFFFFFFFF#32 = w := BitVec.and_allOnes
  rw [decode_cmd_eq_ok_iff, h, hmask, Packet.cmd.injEq, eq_comm]

/-- The CMD words that decode are 1 to 4 (R83). -/
theorem decode_cmd_ok_iff (w : BitVec 32) : (∃ i, decode (.cmd w) = .ok i) ↔ 1 ≤ w.toNat ∧ w.toNat ≤ 4 := by
  refine ⟨?_, fun h => ?_⟩
  · rintro ⟨i, h⟩
    rw [decode_cmd_eq_ok_iff] at h
    cases i <;> cases h <;> decide
  · have hw : w = 1#32 ∨ w = 2#32 ∨ w = 3#32 ∨ w = 4#32 := by bv_omega
    rcases hw with rfl | rfl | rfl | rfl <;> exact ⟨_, rfl⟩

/-- A CMD word that does not decode is illegal, and so is no other (R84, R85). -/
theorem decode_cmd_eq_illegal_iff (w : BitVec 32) :
    decode (.cmd w) = .error (.illegalCommand w) ↔ ¬ ∃ i, decode (.cmd w) = .ok i := by
  simp only [decode, decodeCmd]
  split_ifs <;> simp

/-! ## BUSREQ words -/

/-- SIZE of an access width (R52, R82). -/
def Width.sizeBits : Width → BitVec 2
  | .b1 => 0b00#2
  | .b2 => 0b01#2
  | .b4 => 0b10#2

/-- The access of a width, a write when `we` (R82, R83). -/
def accessInstr (we : Bool) (w : Width) (off : Offset) (wdata : Word32) : Instr :=
  if we then writeInstr w off wdata else readInstr w off

/-- Every SIZE but 11 is that of a width (R82). -/
theorem exists_sizeBits_iff (size : BitVec 2) : (∃ w : Width, size = w.sizeBits) ↔ size ≠ 0b11#2 := by
  refine ⟨?_, fun h => ?_⟩
  · rintro ⟨w, rfl⟩
    cases w <;> decide
  · have hs : size = 0b00#2 ∨ size = 0b01#2 ∨ size = 0b10#2 := by bv_omega
    rcases hs with rfl | rfl | rfl
    · exact ⟨.b1, rfl⟩
    · exact ⟨.b2, rfl⟩
    · exact ⟨.b4, rfl⟩

/-- The word of an access; a read's WDATA is zero (R91). -/
theorem encode_accessInstr (we : Bool) (w : Width) (off : Offset) (wdata : Word32) :
    encode (accessInstr we w off wdata) = .busreq (packBusreq we w.sizeBits off (if we then wdata else 0#32)) := by
  cases we <;> cases w <;> rfl

/-- A BUSREQ decodes to the access of its fields, when its SIZE is that of a width (R82, R83). -/
theorem decode_busreq_eq_ok_iff {w : BitVec 53} {i : Instr} : decode (.busreq w) = .ok i ↔
    ∃ x : Width, fieldSize w = x.sizeBits ∧ i = accessInstr (fieldWe w) x (fieldOff w) (fieldWdata w) := by
  refine ⟨fun h => ?_, ?_⟩
  · simp only [decode, decodeBusreq] at h
    split_ifs at h with h1 hwe h2 hwe h3 hwe <;> cases h
    all_goals simp only [accessInstr, hwe]
    · exact ⟨.b1, h1, rfl⟩
    · exact ⟨.b1, h1, rfl⟩
    · exact ⟨.b2, h2, rfl⟩
    · exact ⟨.b2, h2, rfl⟩
    · exact ⟨.b4, h3, rfl⟩
    · exact ⟨.b4, h3, rfl⟩
  · rintro ⟨x, hx, rfl⟩
    simp only [decode, decodeBusreq, hx]
    cases x <;> cases fieldWe w <;> rfl

/-- What a BUSREQ decodes to encodes to its fields packed again, but for the WDATA of a read (R82, R91). -/
theorem encode_of_decode_busreq {w : BitVec 53} {i : Instr} (h : decode (.busreq w) = .ok i) :
    encode i = .busreq (packBusreq (fieldWe w) (fieldSize w) (fieldOff w) (if fieldWe w then fieldWdata w else 0#32)) := by
  obtain ⟨x, hx, rfl⟩ := decode_busreq_eq_ok_iff.mp h
  rw [encode_accessInstr, hx]

/-- The mask that keeps every field but WDATA (R82). -/
theorem pack_and_wdata_mask (we : Bool) (size : BitVec 2) (off : Offset) (wdata : Word32) :
    packBusreq we size off wdata &&& 0x1FFFFF00000000#53 = packBusreq we size off 0#32 := by
  have hmask : 0x1FFFFF00000000#53 = BitVec.allOnes 21 ++ 0#32 := by decide
  rw [hmask, packBusreq, packBusreq, BitVec.and_append, BitVec.and_zero]
  exact congrArg (· ++ 0#32) BitVec.and_allOnes

/-- The fixed bits of a BUSREQ are those of a row exactly when WE and SIZE are the row's (R83). -/
theorem fixed_bits_iff (w : BitVec 53) (we : Bool) (size : BitVec 2) :
    w &&& 0x1C000000000000#53 = packBusreq we size 0#18 0#32 ↔ fieldWe w = we ∧ fieldSize w = size := by
  rw [← pack_fields w, Laws.TableRow.pack_fixed, pack_fields]
  refine ⟨fun h => ⟨?_, ?_⟩, ?_⟩
  · simpa only [fieldWe_pack] using congrArg fieldWe h
  · simpa only [fieldSize_pack] using congrArg fieldSize h
  · rintro ⟨rfl, rfl⟩
    rfl

/-- A BUSREQ row's match and mask decide whether a word decodes to that row's access (R83). -/
theorem busreq_row_iff (we : Bool) (x : Width) (w : BitVec 53) :
    w &&& 0x1C000000000000#53 = packBusreq we x.sizeBits 0#18 0#32 ↔
      decode (.busreq w) = .ok (accessInstr we x (fieldOff w) (fieldWdata w)) := by
  rw [fixed_bits_iff]
  refine ⟨?_, fun h => ?_⟩
  · rintro ⟨rfl, hx⟩
    exact decode_busreq_eq_ok_iff.mpr ⟨x, hx, rfl⟩
  · have hpack := (encode_of_decode_busreq h).symm.trans (encode_accessInstr we x _ _)
    injection hpack with hpack
    refine ⟨?_, ?_⟩
    · simpa only [fieldWe_pack] using congrArg fieldWe hpack
    · simpa only [fieldSize_pack] using congrArg fieldSize hpack

theorem fieldSize_eq_three_iff (w : BitVec 53) :
    fieldSize w = 0b11#2 ↔ w.getLsbD 51 = true ∧ w.getLsbD 50 = true := by
  refine ⟨fun h => ⟨?_, ?_⟩, fun ⟨h51, h50⟩ => fieldSize_eq_three h51 h50⟩
  · simpa [fieldSize] using congrArg (·.getLsbD 1) h
  · simpa [fieldSize] using congrArg (·.getLsbD 0) h

/-- The BUSREQs that decode are those whose SIZE is not 11 (R84). -/
theorem decode_busreq_ok_iff (w : BitVec 53) :
    (∃ i, decode (.busreq w) = .ok i) ↔ ¬ (w.getLsbD 51 = true ∧ w.getLsbD 50 = true) := by
  rw [← fieldSize_eq_three_iff, ← ne_eq, ← exists_sizeBits_iff]
  simp only [decode_busreq_eq_ok_iff]
  exact ⟨fun ⟨_, x, hx, _⟩ => ⟨x, hx⟩, fun ⟨x, hx⟩ => ⟨_, x, hx, rfl⟩⟩

/-- A BUSREQ that does not decode has the reserved SIZE, and no other has (R84). -/
theorem decode_busreq_eq_reserved_iff (w : BitVec 53) :
    decode (.busreq w) = .error (.reservedSize (fieldWe w)) ↔ ¬ ∃ i, decode (.busreq w) = .ok i := by
  simp only [decode, decodeBusreq]
  split_ifs <;> simp

/-- Settles O2: a CMD word by its row, a BUSREQ by its fields. -/
theorem decodedWordsReencode : Obligations.DecodedWordsReencode := by
  unfold Obligations.DecodedWordsReencode
  refine ⟨fun w i h => decode_cmd_eq_ok_iff.mp h, fun w i h hwe => ?_, fun w i h hwe => ?_⟩
  · rw [encode_of_decode_busreq h, if_pos (show fieldWe w = true from hwe), pack_fields]
  · rw [encode_of_decode_busreq h, if_neg (show ¬ fieldWe w = true from ne_true_of_eq_false hwe),
      ← pack_and_wdata_mask _ _ _ (fieldWdata w), pack_fields]

/-- Settles O3, a row at a time. -/
theorem matchAndMaskDecideTheRow : Obligations.MatchAndMaskDecideTheRow := by
  unfold Obligations.MatchAndMaskDecideTheRow
  exact ⟨cmd_row_iff rfl, cmd_row_iff rfl, cmd_row_iff rfl, cmd_row_iff rfl, busreq_row_iff false .b1,
    busreq_row_iff false .b2, busreq_row_iff false .b4, busreq_row_iff true .b1, busreq_row_iff true .b2, busreq_row_iff true .b4⟩

/-- Settles O4: in each format the rejected words are those that do not decode. -/
theorem exactlyReservedWordsAreRejected : Obligations.ExactlyReservedWordsAreRejected := by
  unfold Obligations.ExactlyReservedWordsAreRejected
  refine ⟨fun w => ?_, decode_cmd_ok_iff, fun w => ?_, decode_busreq_ok_iff⟩
  · rw [decode_cmd_eq_illegal_iff, decode_cmd_ok_iff]
    omega
  · exact (decode_busreq_eq_reserved_iff w).trans (by rw [decode_busreq_ok_iff, not_not])

end Sys2Proof.Machine
end

section
/-!
SUPPORT. A master's turn whose transaction is a read (spec/30_encoding.md R90-R92): the read answers its master and keeps the
masters' programs, so that a `poll` and a `readout` go on as their RDATA says.
-/

namespace Sys2Proof.Machine

/-- A read answers its master, once, and leaves the masters' programs alone (R52). -/
theorem memRead_answers (off : Nat) (w : Width) (s : State) : ∃ v, (memRead off w s).rdata = s.rdata ++ [⟨s.master, v⟩] ∧
    (memRead off w s).lastRdata = v ∧ (memRead off w s).hosts = s.hosts ∧ (memRead off w s).master = s.master := by
  rcases memRead_cases off w s with ⟨-, e⟩ | ⟨-, -, v, e⟩ | ⟨-, v, e⟩ <;> rw [e]
  · exact ⟨0, rfl, respond_lastRdata _ _, rfl, rfl⟩
  · exact ⟨v, rfl, respond_lastRdata _ _, rfl, rfl⟩
  · exact ⟨v, rfl, respond_lastRdata _ _, rfl, rfl⟩

/-- The request of a read is issued as that read (R91). -/
theorem issue_requestOf_read (w : Width) (off : Offset) (s : State) :
    issue (requestOf (readInstr w off)) s = .next (memRead off.toNat w s) := by
  have henc : encode (readInstr w off) = .busreq (requestOf (readInstr w off)) := by cases w <;> rfl
  rw [issue_of_decode (henc ▸ decode_encode (readInstr w off)), exec_readInstr]

/-- A master's turn whose transaction is a read. -/
theorem hostTurn_read {s t : State} {m u : Nat} {op : HostOp} {rest : List HostOp} {w : Width} {off : Offset}
    (hm : s.hosts.getD m [] = op :: rest) (hu : unitAt s.params op.window = some u)
    (ho : op.issued = requestOf (readInstr w off))
    (ht : memRead off.toNat w { s with master := m, active := u, hosts := s.hosts.set m rest } = t) :
    hostTurn m s = .next { t with hosts := op.programsAfter s.hosts t } := by
  rw [hostTurn_of_head hm hu, runHostOp, ho, issue_requestOf_read, ht]

/-- The step of a scheduled master whose transaction is a read, with what the read answers. -/
theorem step_scheduled_read {s : State} {m u : Nat} {op : HostOp} {rest : List HostOp} {ts : List Turn} {w : Width}
    {off : Offset} (hts : s.turns = .host m :: ts) (hm : s.hosts[m]? = some (op :: rest))
    (hu : unitAt s.params op.window = some u) (ho : op.issued = requestOf (readInstr w off)) :
    ∃ t v, exec (readInstr w off) { s with turns := ts, master := m, active := u, hosts := s.hosts.set m rest } = .next t ∧
      t.rdata = s.rdata ++ [⟨m, v⟩] ∧ t.lastRdata = v ∧ t.hosts = s.hosts.set m rest ∧ t.master = m ∧
      step s = .next { t with hosts := op.programsAfter s.hosts t } := by
  obtain ⟨v, hrd, hlast, hhosts, hmaster⟩ := memRead_answers off.toNat w
    { s with turns := ts, master := m, active := u, hosts := s.hosts.set m rest }
  have hget : s.hosts.getD m [] = op :: rest := by simp [List.getD, hm]
  exact ⟨_, v, exec_readInstr w off _, hrd, hlast, hhosts, hmaster,
    (step_of_turns hts).trans (hostTurn_read (s := { s with turns := ts }) hget hu ho rfl)⟩

/-- Settles O9: the turn's read answers `v`, on which alone the poll decides. -/
theorem pollRepeatsUntilTheMaskedValueMatches : Obligations.PollRepeatsUntilTheMaskedValueMatches := by
  unfold Obligations.PollRepeatsUntilTheMaskedValueMatches
  intro s m window off mask value rest u ts hts hm hu
  obtain ⟨t, v, hexec, hrd, hlast, hhosts, -, hstep⟩ := step_scheduled_read (w := .b4) (off := off) hts hm hu rfl
  have hlt : m < s.hosts.length := (List.getElem?_eq_some_iff.mp hm).1
  rw [HostOp.programsAfter, hlast] at hstep
  refine ⟨t, v, hexec, hrd, fun hv => ⟨?_, ?_⟩, fun hv => ?_⟩
  · rw [hstep, if_pos hv]
  · rw [hhosts, List.getElem?_set_self hlt]
  · rw [hstep, if_neg hv]

end Sys2Proof.Machine
end

section
/-!
SUPPORT. The reads of a `readout` (spec/30_encoding.md R92): its turn is the read of OUT_LEN, and the reads that follow stand
where R92 says, words first.
-/

namespace Sys2Proof.Machine

/-- Word `j` of a readout of `n` bytes. -/
theorem readoutDataOps_word (window : Nat) {n j : Nat} (hj : j < n / 4) :
    (readoutDataOps window n)[j]? = some (transaction window (.rd32 (BitVec.ofNat 18 (outBase + 4 * j)))) := by
  rw [readoutDataOps, List.getElem?_append_left (by simpa using hj)]
  simp [hj]

/-- Byte `i` of a readout of `n` bytes, when it is in none of the words. -/
theorem readoutDataOps_byte (window : Nat) {n i : Nat} (h4 : 4 * (n / 4) ≤ i) (hi : i < n) :
    (readoutDataOps window n)[n / 4 + (i - 4 * (n / 4))]? =
      some (transaction window (.rd8 (BitVec.ofNat 18 (outBase + i)))) := by
  have hlt : i - 4 * (n / 4) < n % 4 := by omega
  rw [readoutDataOps, List.getElem?_append_right (by simp)]
  simp [hlt, Nat.add_sub_cancel' h4]

/-- Settles O59: the turn by what its read answers, then each read of the list by its place. -/
theorem readoutReadsAsManyBytesAsOutLenReturned : Obligations.ReadoutReadsAsManyBytesAsOutLenReturned := by
  unfold Obligations.ReadoutReadsAsManyBytesAsOutLenReturned
  refine ⟨fun s m window rest u ts hts hm hu => ?_, fun window n => ⟨readoutDataOps_length window n, ?_, ?_⟩⟩
  · obtain ⟨t, v, hexec, hrd, hlast, hhosts, hmaster, hstep⟩ :=
      step_scheduled_read (w := .b4) (off := 0x18#18) hts hm hu rfl
    have hlt : m < s.hosts.length := (List.getElem?_eq_some_iff.mp hm).1
    have hprog : (HostOp.readout window).programsAfter s.hosts t =
        s.hosts.set m (readoutDataOps window v.toNat ++ rest) := by
      simp [hhosts, hmaster, hlast, hlt]
    exact ⟨t, v, hexec, hrd, hprog ▸ hstep⟩
  · exact fun j hj => readoutDataOps_word window hj
  · exact fun i h4 hi => readoutDataOps_byte window h4 hi

end Sys2Proof.Machine
end

section
/-!
SUPPORT. A run of reads by the one master of a machine whose units are idle, and what `readout` returns of an idle unit
(spec/30_encoding.md R92, 20_memory.md R55).
-/

namespace Sys2Proof.Machine

/-! ## A machine that reads an idle unit -/

/-- A run is its first step and the run from there. -/
theorem run_succ_of_step {s t : State} (h : step s = .next t) (k : Nat) : core.run (k + 1) s = core.run k t := by
  simp only [Host.Core.run, core, h]

/-- With nothing scheduled and every unit idle, the one master moves when it has work left (log 3). -/
theorem step_of_idle {s : State} (ht : s.turns = []) (hidle : ∀ w ∈ s.units, w.status.busy = false) {op : HostOp}
    {rest : List HostOp} (hh : s.hosts = [op :: rest]) : step s = hostTurn 0 s := by
  have hnone : s.units.findIdx? (fun w => w.status.busy) = none := List.findIdx?_eq_none_iff.mpr hidle
  simp [step, turn, ht, dueTurn, hnone, hh, takeTurn]

/-- Nothing is scheduled, every unit is idle, and unit `u`, now `v`, stands at the window: the premises of a read. -/
abbrev IdleAt (s : State) (window u : Nat) (v : UnitState) : Prop :=
  s.turns = [] ∧ (∀ w ∈ s.units, w.status.busy = false) ∧ unitAt s.params window = some u ∧ s.units[u]? = some v

/-- `s` once its one master, reading unit `u`, has `prog` left and has been answered `vs`. -/
def State.reading (s : State) (u : Nat) (prog : List HostOp) (vs : List Word32) : State :=
  { s with master := 0, active := u, hosts := [prog], rdata := s.rdata ++ vs.map fun x => ⟨0, x⟩ }

/-- A response appends to what the master was answered (R52). -/
theorem respond_reading (s : State) (u : Nat) (prog : List HostOp) (vs : List Word32) (x : Word32) :
    (s.reading u prog vs).respond x = s.reading u prog (vs ++ [x]) := by
  simp [State.reading, State.respond]

theorem unit_reading {s : State} {u : Nat} {v : UnitState} (h : s.units[u]? = some v) (prog : List HostOp)
    (vs : List Word32) : (s.reading u prog vs).unit = v :=
  unit_eq_of_getElem? (s := s.reading u prog vs) h

/-! ## Reads of OUT_BUF -/

/-- The read of a width and an offset, as a master issues it. -/
def readOp (window : Nat) (r : Width × Nat) : HostOp := transaction window (readInstr r.1 (BitVec.ofNat 18 r.2))

/-- What that read answers (R55). -/
def readValue (m : Memory) (r : Width × Nat) : Word32 := Memory.readWord m r.2 r.1.bytes

/-- The read is an aligned one of OUT_BUF (R51, R53). -/
abbrev ReadsOut (p : Params) (r : Width × Nat) : Prop := r.2 % r.1.bytes = 0 ∧ region p r.2 = .out

/-- OUT_BUF ends below 2^18, so its offsets are OFFs (R9, R51). -/
theorem toNat_of_region_out {p : Params} (hp : p.maxIn ≤ 65520) {a : Nat} (h : region p a = .out) :
    (BitVec.ofNat 18 a).toNat = a := by
  obtain ⟨-, hlt⟩ := region_out_bounds h
  have hb := bases
  have hc : p.outCap = p.maxIn + 16 := rfl
  rw [BitVec.toNat_ofNat]
  omega

/-- A read of OUT_BUF on an idle unit answers its bytes, and the master goes on. -/
theorem step_readOp {s : State} {window u : Nat} {v : UnitState} (hs : IdleAt s window u v) (hp : s.params.maxIn ≤ 65520)
    {r : Width × Nat} (hr : ReadsOut s.params r) (rest : List HostOp) (vs : List Word32) :
    step (s.reading u (readOp window r :: rest) vs) = .next (s.reading u rest (vs ++ [readValue v.mem r])) := by
  obtain ⟨hts, hidle, hw, hu⟩ := hs
  obtain ⟨hal, hout⟩ := hr
  have hunit := unit_reading hu rest vs
  have hread : memRead (BitVec.ofNat 18 r.2).toNat r.1 (s.reading u rest vs) =
      s.reading u rest (vs ++ [readValue v.mem r]) := by
    have hb : v.status.busy = false := hidle v (List.mem_of_getElem? hu)
    rw [toNat_of_region_out hp hout, memRead_buffer (s := s.reading u rest vs) hal (.inr (.inr ⟨hout, by rwa [hunit]⟩)), hunit,
      respond_reading]
    rfl
  rw [step_of_idle (s := s.reading u (readOp window r :: rest) vs) hts hidle rfl]
  exact hostTurn_read (s := s.reading u (readOp window r :: rest) vs) (m := 0) rfl hw rfl hread

/-- A run of such reads, one step each. -/
theorem run_readOps {s : State} {window u : Nat} {v : UnitState} (hs : IdleAt s window u v) (hp : s.params.maxIn ≤ 65520)
    (rest : List HostOp) (rs : List (Width × Nat)) (hrs : ∀ r ∈ rs, ReadsOut s.params r) (vs : List Word32) :
    core.run rs.length (s.reading u (rs.map (readOp window) ++ rest) vs) =
      .next (s.reading u rest (vs ++ rs.map (readValue v.mem))) := by
  induction rs generalizing vs with
  | nil => simp [Host.Core.run]
  | cons r rs ih =>
    obtain ⟨hr, hrs⟩ := List.forall_mem_cons.mp hrs
    rw [List.map_cons, List.cons_append, List.length_cons, run_succ_of_step (step_readOp hs hp hr _ vs), ih hrs, List.map_cons,
      List.append_assoc, List.singleton_append]

/-! ## The reads of `readout` -/

/-- The word reads and the byte reads of a readout of `n` bytes (R92). -/
def readoutReads (n : Nat) : List (Width × Nat) :=
  (List.range (n / 4)).map (fun j => (.b4, outBase + 4 * j)) ++
    (List.range' (4 * (n / 4)) (n % 4)).map (fun i => (.b1, outBase + i))

theorem readoutDataOps_eq_map (window n : Nat) : readoutDataOps window n = (readoutReads n).map (readOp window) := by
  simp only [readoutDataOps, readoutReads, List.map_append, List.map_map]
  rfl

theorem readoutReads_length (n : Nat) : (readoutReads n).length = n / 4 + n % 4 := by
  simp [readoutReads]

/-- A readout of no more than OUT_CAP bytes stays in OUT_BUF. -/
theorem readoutReads_readsOut {p : Params} (hp : p.maxIn ≤ 65520) {n : Nat} (hn : n ≤ p.outCap) :
    ∀ r ∈ readoutReads n, ReadsOut p r := by
  have hb := bases
  intro r hr
  rcases List.mem_append.mp hr with hr | hr
  · obtain ⟨j, hj, rfl⟩ := List.mem_map.mp hr
    have hj := List.mem_range.mp hj
    refine ⟨?_, (region_eq_out hp).mpr ?_⟩ <;> simp only [Width.bytes] <;> omega
  · obtain ⟨i, hi, rfl⟩ := List.mem_map.mp hr
    have hi := List.mem_range'_1.mp hi
    exact ⟨Nat.mod_one _, (region_eq_out hp).mpr (by simp only; omega)⟩

/-- The first turn of a readout reads OUT_LEN, and the program goes on with the reads of so many bytes (R92). -/
theorem step_readout {s : State} {window u : Nat} {v : UnitState} {rest : List HostOp} (hs : IdleAt s window u v)
    (hh : s.hosts = [.readout window :: rest]) :
    step s = .next (s.reading u (readoutDataOps window v.outLen.toNat ++ rest) [v.outLen]) := by
  obtain ⟨hts, hidle, hw, hu⟩ := hs
  have hb : v.status.busy = false := hidle v (List.mem_of_getElem? hu)
  have hunit := unit_reading hu rest []
  have hstart : { s with master := 0, active := u, hosts := s.hosts.set 0 rest } = s.reading u rest [] := by
    simp [State.reading, hh]
  have hread : memRead (0x18#18).toNat .b4 { s with master := 0, active := u, hosts := s.hosts.set 0 rest } =
      s.reading u rest [v.outLen] := by
    rw [hstart, memRead_reg (by decide) (by decide) (fun _ => by rwa [hunit]), hunit, respond_reading]
    rfl
  have hlast : (s.reading u rest [v.outLen]).lastRdata = v.outLen := by simp [State.reading, State.lastRdata]
  rw [step_of_idle hts hidle hh, hostTurn_read (by rw [hh]; rfl) hw rfl hread, programsAfter_readout, hlast]
  rfl

/-! ## What `readout` returns -/

theorem slice_append (m : Memory) (a k l : Nat) :
    Memory.slice m a (k + l) = Memory.slice m a k ++ Memory.slice m (a + k) l := by
  simp only [Memory.slice, List.range_add, List.map_append, List.map_map, Function.comp_def, Nat.add_assoc]

/-- The bytes of a word read (R55). -/
theorem bytesOfNat_readWord_four (m : Memory) (a : Nat) : bytesOfNat 4 (Memory.readWord m a 4).toNat = Memory.slice m a 4 := by
  have hlt := natOfBytes_lt (Memory.slice m a 4)
  rw [slice_length] at hlt
  have hnat : (Memory.readWord m a 4).toNat = natOfBytes (Memory.slice m a 4) := by
    rw [Memory.readWord, BitVec.toNat_ofNat]
    exact Nat.mod_eq_of_lt hlt
  have hbytes := bytesOfNat_natOfBytes (Memory.slice m a 4)
  rwa [slice_length, ← hnat] at hbytes

/-- The byte of a byte read (R55). -/
theorem setWidth_readWord_one (m : Memory) (a : Nat) : (Memory.readWord m a 1).setWidth 8 = Memory.read m a := by
  rw [readWord_one]
  apply BitVec.eq_of_toNat_eq
  simp

/-- Words read one after the other are the run of bytes they span. -/
theorem flatMap_slice_four (m : Memory) (a k : Nat) :
    (List.range k).flatMap (fun j => Memory.slice m (a + 4 * j) 4) = Memory.slice m a (4 * k) := by
  induction k with
  | zero => rfl
  | succ k ih => rw [List.range_succ, List.flatMap_append, ih, List.flatMap_singleton, Nat.mul_succ, slice_append]

/-- Bytes read one after the other are the run they span. -/
theorem map_read_range' (m : Memory) (a k l : Nat) :
    (List.range' k l).map (fun i => Memory.read m (a + i)) = Memory.slice m (a + k) l := by
  simp only [List.range'_eq_map_range, List.map_map, Function.comp_def, Memory.slice, Nat.add_assoc]

/-- The r of a readout is the run of bytes its reads span (R92). -/
theorem readoutBytes_readoutReads (m : Memory) (len : Word32) :
    readoutBytes (len :: (readoutReads len.toNat).map (readValue m)) = Memory.slice m outBase len.toNat := by
  rw [readoutBytes, readoutReads, List.map_append, List.take_left' (by simp), List.drop_left' (by simp),
    List.take_of_length_le (by simp)]
  simp only [List.flatMap_map, List.map_map, Function.comp_def, readValue, Width.bytes, bytesOfNat_readWord_four,
    setWidth_readWord_one, flatMap_slice_four, map_read_range', ← slice_append, Nat.div_add_mod]

/-- What a master that was answered `vs` since `s` reads out (R92). -/
theorem readoutFrom_reading (s : State) (u : Nat) (prog : List HostOp) (vs : List Word32) :
    (s.reading u prog vs).readoutFrom 0 (s.rdataOf 0).length = readoutBytes vs := by
  simp [State.readoutFrom, State.rdataOf, State.reading, List.filter_map, Function.comp_def]

/-- Settles O60: the first step reads OUT_LEN, and the reads that follow stay in OUT_BUF since OUT_LEN is at most OUT_CAP. -/
theorem readoutReturnsTheResult : Obligations.ReadoutReturnsTheResult := by
  unfold Obligations.ReadoutReturnsTheResult
  intro s u window v rest hinv hts hidle hw hu hh
  have hs : IdleAt s window u v := ⟨hts, hidle, hw, hu⟩
  have hh : s.hosts = [.readout window :: rest] := hh
  obtain ⟨hp, -, -, hall⟩ := hinv
  obtain ⟨-, hmax, -, -, -⟩ := params_wf_bounds hp
  obtain ⟨-, -, -, hlen, -⟩ := hall v (List.mem_of_getElem? hu)
  refine ⟨s.reading u rest (v.outLen :: (readoutReads v.outLen.toNat).map (readValue v.mem)), ?_, rfl, rfl, ?_⟩
  · rw [Nat.add_comm, run_succ_of_step (step_readout hs hh), readoutDataOps_eq_map, ← readoutReads_length,
      run_readOps hs hmax rest _ (readoutReads_readsOut hmax hlen)]
    rfl
  · rw [readoutFrom_reading, readoutBytes_readoutReads]

end Sys2Proof.Machine
end

section
/-!
SUPPORT. KDF as a positional fit (spec/40_key_derivation.md R101, R103), and DERIVE_KEY as finish_ok of the key (R105).
-/

namespace Sys2Proof.Machine

/-- Byte `i` of the key (R101). -/
theorem kdf_getD (b : List Byte) (n : Nat) {i : Nat} (hi : i < 32) :
    (kdf b n).getD i 0 = if i < min n 32 then b.getD i 0 else 0 := by
  simp [kdf, List.getD, hi]

/-- A list of 32 bytes is the key when each of its bytes is the byte R101 gives. -/
theorem kdf_eq_of_getD {b l : List Byte} {n : Nat} (hl : l.length = 32)
    (h : ∀ i, i < 32 → l.getD i 0 = if i < min n 32 then b.getD i 0 else 0) : kdf b n = l := by
  apply List.ext_getElem ((kdf_length b n).trans hl.symm)
  intro i hk hi
  rw [← List.getD_eq_getElem _ 0 hk, ← List.getD_eq_getElem _ 0 hi, kdf_getD b n (hl ▸ hi), h i (hl ▸ hi)]

/-- The key depends on the first min(PASS_LEN, 32) bytes only (R103 item 2). -/
theorem kdf_congr {b c : List Byte} {n k : Nat} (hnk : min n 32 = min k 32)
    (h : ∀ i, i < min n 32 → b.getD i 0 = c.getD i 0) : kdf b n = kdf c k := by
  refine kdf_eq_of_getD (kdf_length c k) fun i hi => ?_
  rw [kdf_getD c k hi, ← hnk]
  split
  case isTrue hlt => exact (h i hlt).symm
  case isFalse => rfl

/-- Settles O37, a clause at a time. -/
theorem keyIsThePassphraseFittedTo32Bytes : Obligations.KeyIsThePassphraseFittedTo32Bytes := by
  unfold Obligations.KeyIsThePassphraseFittedTo32Bytes
  exact ⟨fun b n => ⟨kdf_length b n, fun i hi => kdf_getD b n hi⟩, fun b c n k => kdf_congr⟩

/-- Settles O38: the 32 bytes of the key fit OUT_BUF, since MAX_IN is at least 16. -/
theorem deriveKeyOutputsTheKey : Obligations.DeriveKeyOutputsTheKey := by
  unfold Obligations.DeriveKeyOutputsTheKey
  intro s hp hwf
  obtain ⟨h16, hmax, -, -, -⟩ := params_wf_bounds hp
  have hfits : s.unit.key.length ≤ s.params.outCap := by
    rw [unit_key_length, Params.outCap]
    omega
  refine ⟨endOk s s.unit.key, execDeriveKey_eq s, finishOk_ended hwf hfits hmax, ?_⟩
  rw [scrub_outLen, finishOk_outLen, unit_key_length]
  rfl

end Sys2Proof.Machine
end

section
/-!
SUPPORT. UTF-8 of one code point (spec/40_key_derivation.md R100): its bytes a row of the table at a time, and the marker and
payload bits of a continuation byte.
-/

namespace Sys2Proof.Machine

/-! ## The rows -/

theorem utf8Char_eq_none_iff (c : Nat) : utf8Char c = none ↔ (0xD800 ≤ c ∧ c ≤ 0xDFFF) ∨ 0x10FFFF < c := by
  unfold utf8Char
  split_ifs <;> simp only [true_iff, false_iff] <;> omega

theorem utf8Char_one {c : Nat} (h : c ≤ 0x7F) : utf8Char c = some [BitVec.ofNat 8 c] := if_pos h

theorem utf8Char_two {c : Nat} (h1 : 0x80 ≤ c) (h2 : c ≤ 0x7FF) :
    utf8Char c = some [BitVec.ofNat 8 (0xC0 + c / 2 ^ 6), utf8Tail c 0] := by
  rw [utf8Char, if_neg (by omega), if_pos h2]

theorem utf8Char_three {c : Nat} (h1 : 0x800 ≤ c) (h2 : c ≤ 0xFFFF) (hs : ¬ (0xD800 ≤ c ∧ c ≤ 0xDFFF)) :
    utf8Char c = some [BitVec.ofNat 8 (0xE0 + c / 2 ^ 12), utf8Tail c 6, utf8Tail c 0] := by
  rw [utf8Char, if_neg (by omega), if_neg (by omega), if_neg hs, if_pos h2]

theorem utf8Char_four {c : Nat} (h1 : 0x10000 ≤ c) (h2 : c ≤ 0x10FFFF) :
    utf8Char c = some [BitVec.ofNat 8 (0xF0 + c / 2 ^ 18), utf8Tail c 12, utf8Tail c 6, utf8Tail c 0] := by
  rw [utf8Char, if_neg (by omega), if_neg (by omega), if_neg (by omega), if_neg (by omega), if_pos h2]

/-! ## Markers and payloads -/

theorem utf8Tail_toNat (c k : Nat) : (utf8Tail c k).toNat = 0x80 + c / 2 ^ k % 64 := by
  rw [utf8Tail, BitVec.toNat_ofNat]
  omega

theorem utf8Tail_marker (c k : Nat) : (utf8Tail c k).toNat / 64 = 0b10 := by
  rw [utf8Tail_toNat]
  omega

theorem utf8Tail_payload (c k : Nat) : (utf8Tail c k).toNat % 64 = c / 2 ^ k % 64 := by
  rw [utf8Tail_toNat]
  omega

/-- The first byte holds its marker and the payload bits left to it, when they fit. -/
theorem utf8Lead_toNat {marker payload : Nat} (h : marker + payload < 256) :
    (BitVec.ofNat 8 (marker + payload)).toNat = marker + payload := by
  rw [BitVec.toNat_ofNat]
  exact Nat.mod_eq_of_lt h

/-- Settles O58, a row at a time: the payloads are the code point's digits in base 64. -/
theorem utf8FollowsItsTable : Obligations.Utf8FollowsItsTable := by
  unfold Obligations.Utf8FollowsItsTable
  refine ⟨utf8Char_eq_none_iff, fun c h => utf8Char_one h, fun c h1 h2 => ?_, fun c h1 h2 hs => ?_, fun c h1 h2 => ?_⟩
  · refine ⟨_, _, utf8Char_two h1 h2, ?_, utf8Tail_marker c 0, ?_⟩ <;>
      rw [utf8Lead_toNat (by omega)]
    · omega
    · rw [utf8Tail_payload]
      omega
  · refine ⟨_, _, _, utf8Char_three h1 h2 hs, ?_, utf8Tail_marker c 6, utf8Tail_marker c 0, ?_⟩ <;>
      rw [utf8Lead_toNat (by omega)]
    · omega
    · rw [utf8Tail_payload, utf8Tail_payload]
      omega
  · refine ⟨_, _, _, _, utf8Char_four h1 h2, ?_, utf8Tail_marker c 12, utf8Tail_marker c 6, utf8Tail_marker c 0, ?_⟩ <;>
      rw [utf8Lead_toNat (by omega)]
    · omega
    · rw [utf8Tail_payload, utf8Tail_payload, utf8Tail_payload]
      omega

end Sys2Proof.Machine
end

section
/-!
SUPPORT. The one master writing an idle unit (spec/20_memory.md R56, R57), and what `setpass` leaves (spec/30_encoding.md R92,
40_key_derivation.md R102).
-/

namespace Sys2Proof.Machine

/-! ## A machine that writes an idle unit -/

/-- A run goes on from where a shorter one ended. -/
theorem run_add_of_run {j : Nat} {s t : State} (h : core.run j s = .next t) (k : Nat) :
    core.run (j + k) s = core.run k t := by
  induction j generalizing s with
  | zero =>
    cases h
    rw [Nat.zero_add]
  | succ j ih =>
    simp only [Host.Core.run, core, Nat.succ_add] at h ⊢
    cases hs : step s with
    | next s' =>
      rw [hs] at h
      exact ih h
    | fault r => simp [hs] at h
    | refused r => simp [hs] at h

/-- The unit at the window is one of the idle units. -/
theorem idle_of_idleAt {s : State} {window u : Nat} {v : UnitState} (h : IdleAt s window u v) : v.status.busy = false := by
  obtain ⟨-, hidle, -, hu⟩ := h
  exact hidle v (List.mem_of_getElem? hu)

/-- The request of a write is issued as that write (R91). -/
theorem issue_requestOf_write (w : Width) (off : Offset) (v : Word32) (s : State) :
    issue (requestOf (writeInstr w off v)) s = .next (memWrite off.toNat w v s) := by
  have henc : encode (writeInstr w off v) = .busreq (requestOf (writeInstr w off v)) := by cases w <;> rfl
  rw [issue_of_decode (henc ▸ decode_encode (writeInstr w off v)), exec_writeInstr]

/-- The write of a width puts `v'` in the place of an active unit `v`. -/
abbrev Writes (w : Width) (off : Offset) (x : Word32) (v v' : UnitState) : Prop :=
  ∀ s : State, s.unit = v → memWrite off.toNat w x s = s.setUnit v'

/-- A write that leaves its unit idle takes one step, after which the master goes on. -/
theorem step_write {s : State} {window u : Nat} {v v' : UnitState} (hs : IdleAt s window u v) {w : Width} {off : Offset}
    {x : Word32} {rest : List HostOp} (hh : s.hosts = [transaction window (writeInstr w off x) :: rest])
    (hw : Writes w off x v v') (hb : v'.status.busy = false) :
    ∃ t, step s = .next t ∧ IdleAt t window u v' ∧ t.hosts = [rest] := by
  obtain ⟨hts, hidle, hwin, hu⟩ := hs
  have hturn : step s = .next (State.setUnit { s with master := 0, active := u, hosts := s.hosts.set 0 rest } v') := by
    rw [step_of_idle hts hidle hh, hostTurn_of_head (by rw [hh]; rfl) hwin, transaction, runHostOp_request,
      issue_requestOf_write, hw _ (unit_eq_of_getElem? hu)]
  refine ⟨_, hturn, ⟨hts, fun y hy => ?_, hwin, ?_⟩, ?_⟩
  · rcases List.mem_or_eq_of_mem_set hy with hy | rfl
    · exact hidle y hy
    · exact hb
  · exact List.getElem?_set_self (List.getElem?_eq_some_iff.mp hu).1
  · simp [hh]

/-! ## The writes of `setpass` -/

/-- An aligned write to PASS of an idle unit stores the datum's bytes (R56). -/
theorem writes_pass {v : UnitState} (hb : v.status.busy = false) {w : Width} {base : Nat} (hal : base % w.bytes = 0)
    (hlo : passBase ≤ base) (hhi : base < passBase + 32) (x : Word32) :
    Writes w (BitVec.ofNat 18 base) x v { v with mem := Memory.store v.mem base (bytesOfNat w.bytes x.toNat) } := by
  have hp := bases
  have hoff : (BitVec.ofNat 18 base).toNat = base := by
    rw [BitVec.toNat_ofNat]
    omega
  rintro s rfl
  rw [hoff, memWrite_buffer x hal (.inl (region_eq_pass.mpr (by omega))) hb]
  rfl

/-- The bytes a `le32` word write stores are those it was made of (R92). -/
theorem bytesOfNat_word (a b c d : Byte) : bytesOfNat 4 (BitVec.ofNat 32 (natOfBytes [a, b, c, d])).toNat = [a, b, c, d] := by
  have hlt : natOfBytes [a, b, c, d] < 2 ^ 32 := by simpa using natOfBytes_lt [a, b, c, d]
  rw [BitVec.toNat_ofNat, Nat.mod_eq_of_lt hlt]
  exact bytesOfNat_natOfBytes [a, b, c, d]

/-- The byte a single write stores is the one it was made of (R92). -/
theorem bytesOfNat_byte (a : Byte) : bytesOfNat 1 (a.setWidth 32).toNat = [a] := by
  rw [BitVec.toNat_setWidth_of_le (by decide)]
  simp [bytesOfNat]

/-- The word-then-byte sequence of R92 stores its bytes in PASS_BUF, one step a transaction. Words come first, so only they
need the base aligned. -/
theorem run_storeOps_pass (window u : Nat) (rest : List HostOp) (base : Nat) (bytes : List Byte) (s : State) (v : UnitState)
    (hs : IdleAt s window u v) (hh : s.hosts = [storeOps window base bytes ++ rest]) (hlo : passBase ≤ base)
    (hhi : base + bytes.length ≤ passBase + 32) (hal : 4 ≤ bytes.length → base % 4 = 0) :
    ∃ t, core.run (storeOps window base bytes).length s = .next t ∧
      IdleAt t window u { v with mem := Memory.store v.mem base bytes } ∧ t.hosts = [rest] := by
  have hb := idle_of_idleAt hs
  fun_induction storeOps window base bytes generalizing s v with
  | case1 base a b c d bs ih =>
    simp only [List.length_cons] at hhi hal
    have hw := writes_pass hb (w := .b4) (hal (by omega)) hlo (by omega) (BitVec.ofNat 32 (natOfBytes [a, b, c, d]))
    rw [Width.bytes, bytesOfNat_word] at hw
    obtain ⟨t, ht, hs', hh'⟩ := step_write (w := .b4) hs hh hw hb
    rw [List.length_cons, run_succ_of_step ht]
    exact ih t _ hs' hh' (by omega) (by omega) (by omega) hb
  | case2 base a bs hshort ih =>
    have hlen : bs.length < 3 := by
      match bs, hshort with
      | [], _ | [_], _ | [_, _], _ => simp
      | b :: c :: d :: bs', hshort => exact (hshort b c d bs' rfl).elim
    simp only [List.length_cons] at hhi hal
    have hw := writes_pass hb (w := .b1) (Nat.mod_one base) hlo (by omega) (a.setWidth 32)
    rw [Width.bytes, bytesOfNat_byte] at hw
    obtain ⟨t, ht, hs', hh'⟩ := step_write (w := .b1) hs hh hw hb
    rw [List.length_cons, run_succ_of_step ht]
    exact ih t _ hs' hh' (by omega) (by omega) (by omega) hb
  | case3 base => exact ⟨s, rfl, hs, hh⟩

/-- A write to PASS_LEN of an idle unit (R57). -/
theorem writes_passLen {v : UnitState} (hb : v.status.busy = false) (x : Word32) :
    Writes .b4 (BitVec.ofNat 18 offPassLen) x v { v with passLen := x } := by
  rintro s rfl
  exact memWrite_passLen hb x

/-- `setpass` stores the first 32 bytes and the length (R92, R102). -/
theorem run_setpassOps {s : State} {window u : Nat} {v : UnitState} {b : List Byte} {rest : List HostOp}
    (hs : IdleAt s window u v) (hh : s.hosts = [setpassOps window b ++ rest]) :
    ∃ t, core.run (setpassOps window b).length s = .next t ∧ t.hosts = [rest] ∧
      t.units[u]? = some { v with mem := Memory.store v.mem passBase (b.take 32), passLen := passLenWord b.length } := by
  rw [setpassOps, List.append_assoc] at hh
  obtain ⟨t, ht, hs', hh'⟩ := run_storeOps_pass window u _ passBase (b.take 32) s v hs hh (Nat.le_refl _)
    (by simp) (fun _ => rfl)
  have hb := idle_of_idleAt hs'
  obtain ⟨t', ht', ⟨-, -, -, hu⟩, hh''⟩ := step_write (w := .b4) hs' hh' (writes_passLen hb (passLenWord b.length)) hb
  refine ⟨t', ?_, hh'', hu⟩
  rw [setpassOps, List.length_append, run_add_of_run ht]
  exact run_succ_of_step ht' 0

/-! ## The key -/

/-- PASS_LEN as `setpass` writes it cuts the passphrase where its own length does (R102). -/
theorem min_passLenWord (n : Nat) : min (passLenWord n).toNat 32 = min n 32 := by
  unfold passLenWord
  split
  case isTrue h => rw [BitVec.toNat_ofNat, Nat.mod_eq_of_lt h]
  case isFalse h =>
    have hall : (0xFFFFFFFF : Word32).toNat = 4294967295 := rfl
    omega

/-- The key of a passphrase's own bytes and length is its first 32 bytes padded with zeros (R102). -/
theorem kdf_self (b : List Byte) : kdf b b.length = (b ++ List.replicate 32 0).take 32 := by
  refine kdf_eq_of_getD (by simp) fun i hi => ?_
  rw [List.getD, List.getElem?_take_of_lt hi]
  split
  case isTrue h =>
    rw [List.getElem?_append_left (by omega)]
    rfl
  case isFalse h =>
    rw [List.getElem?_append_right (by omega), List.getElem?_replicate_of_lt (by omega)]
    rfl

/-- A unit that holds the first 32 bytes of a passphrase and its length has the passphrase's key. -/
theorem key_of_passphrase (v : UnitState) (hwf : Memory.wf v.mem) (b : List Byte) :
    UnitState.key { v with mem := Memory.store v.mem passBase (b.take 32), passLen := passLenWord b.length } =
      (b ++ List.replicate 32 0).take 32 := by
  rw [← kdf_self]
  refine kdf_congr (min_passLenWord _) fun i hi => ?_
  rw [min_passLenWord] at hi
  rw [UnitState.passBytes, slice_getD _ _ _ (by omega), read_store hwf _ _ (by simp; omega), List.getD, List.getD,
    List.getElem?_take_of_lt (by omega)]

/-- Settles O39: the run leaves the passphrase's first 32 bytes and its length, whose key is R102's. -/
theorem setpassLoadsThePassphrase : Obligations.SetpassLoadsThePassphrase := by
  unfold Obligations.SetpassLoadsThePassphrase
  intro s u window b rest hinv hts hidle hw hh
  obtain ⟨-, hn, -, hall⟩ := hinv
  have hlt : u < s.units.length := (unitAt_lt hw).trans_eq hn.symm
  obtain ⟨hwf, -⟩ := hall _ (List.getElem_mem hlt)
  obtain ⟨t, ht, hhosts, hu⟩ := run_setpassOps ⟨hts, hidle, hw, List.getElem?_eq_getElem hlt⟩ hh
  refine ⟨t, ht, hhosts, ?_⟩
  rw [List.getD, hu]
  exact key_of_passphrase _ hwf b

end Sys2Proof.Machine
end

section
/-!
SUPPORT. The round transformations and their inverses (spec/41_block_cipher.md R123-R130). The S-box tables are checked byte by
byte. MixColumns and InvMixColumns are linear, so a column is checked a row at a time, for any byte in that row: there the
products of the two maps' constants add up to 1 or 0.
-/

namespace Sys2Proof.Machine

/-! ## The S-box (R124, R126) -/

/-- The inverse of R124's affine map: it takes an S-box entry back to the byte the entry is the affine image of. -/
def invAffine (y : Byte) : Byte := y.rotateLeft 1 ^^^ y.rotateLeft 3 ^^^ y.rotateLeft 6 ^^^ 0x05#8

/-- The affine map of R124, bit by bit, undoes `invAffine`. -/
theorem affine_invAffine : ∀ y : Byte, ∀ i < 8,
    ((invAffine y).getLsbD i ^^ (invAffine y).getLsbD ((i + 4) % 8) ^^ (invAffine y).getLsbD ((i + 5) % 8) ^^
      (invAffine y).getLsbD ((i + 6) % 8) ^^ (invAffine y).getLsbD ((i + 7) % 8) ^^ (0x63#8).getLsbD i) = y.getLsbD i := by
  decide +kernel

/-- The byte an S-box entry is the affine image of is the field inverse of the entry's index. -/
theorem gmul_invAffine_sbox : ∀ a : Byte, a ≠ 0x00#8 → gmul a (invAffine (sbox a)) = 0x01#8 := by decide +kernel

@[simp] theorem invSbox_sbox : ∀ a : Byte, invSbox (sbox a) = a := by decide +kernel

/-- Settles O40: the inverse asked for is the entry's preimage under the affine map. -/
theorem sboxIsTheAffineMapOfTheInverse : Obligations.SboxIsTheAffineMapOfTheInverse := by
  unfold Obligations.SboxIsTheAffineMapOfTheInverse
  exact ⟨fun a ha => ⟨invAffine (sbox a), gmul_invAffine_sbox a ha, fun i hi => (affine_invAffine (sbox a) i hi).symm⟩, rfl⟩

/-! ## The second factor of a product (R123) -/

/-- What bit `i` of the constant adds to a product (R123). -/
def gmulTerm (a c : Byte) (i : Nat) : Byte := if c.getLsbD i then xtimes i a else 0#8

/-- A product is the XOR of what the eight bits of the constant add. -/
theorem gmul_eq (a c : Byte) : gmul a c =
    gmulTerm a c 0 ^^^ gmulTerm a c 1 ^^^ gmulTerm a c 2 ^^^ gmulTerm a c 3 ^^^
      gmulTerm a c 4 ^^^ gmulTerm a c 5 ^^^ gmulTerm a c 6 ^^^ gmulTerm a c 7 := by
  have hbit : ∀ acc i, (if c.getLsbD i then acc ^^^ xtimes i a else acc) = acc ^^^ gmulTerm a c i := by
    intro acc i
    unfold gmulTerm
    split <;> simp
  simp only [gmul, hbit, List.range, List.range.loop, List.foldl, BitVec.zero_xor]

theorem gmulTerm_xor_right (a c d : Byte) (i : Nat) : gmulTerm a (c ^^^ d) i = gmulTerm a c i ^^^ gmulTerm a d i := by
  unfold gmulTerm
  rw [BitVec.getLsbD_xor]
  cases c.getLsbD i <;> cases d.getLsbD i <;> simp

/-- • is linear over XOR in its second factor too. -/
theorem gmul_xor_right (a c d : Byte) : gmul a (c ^^^ d) = gmul a c ^^^ gmul a d := by
  simp only [gmul_eq, gmulTerm_xor_right]
  ac_rfl

theorem xtimes_xtime (n : Nat) (a : Byte) : xtimes n (xtime a) = xtimes (n + 1) a := by
  induction n with
  | zero => rfl
  | succ n ih => rw [xtimes, ih]; rfl

/-- A factor x moves to the constant, while that needs no reduction. -/
theorem gmul_xtime (a : Byte) {c : Byte} (hc : c.getLsbD 7 = false) : gmul (xtime a) c = gmul a (c <<< 1) := by
  simp [gmul_eq, gmulTerm, xtimes_xtime, -BitVec.getLsbD_eq_getElem, hc]

@[simp] theorem gmul_zero (a : Byte) : gmul a 0#8 = 0#8 := by simp [gmul_eq, gmulTerm]
@[simp] theorem zero_gmul (c : Byte) : gmul 0#8 c = 0#8 := by simpa using gmul_xor 0 0 c
@[simp] theorem gmul_one (a : Byte) : gmul a 1#8 = a := by simp [gmul_eq, gmulTerm, xtimes]
theorem gmul_two (a : Byte) : gmul a 2#8 = xtime a := by simp [gmul_eq, gmulTerm, xtimes]
theorem gmul_three (a : Byte) : gmul a 3#8 = a ^^^ xtime a := by simp [gmul_eq, gmulTerm, xtimes]

/-! ## Columns (R129, R130) -/

theorem mixColumn_xor (s t : AesWord) : mixColumn (s.xor t) = (mixColumn s).xor (mixColumn t) := by
  simp only [mixColumn, AesWord.xor, gmul_xor, AesWord.mk.injEq]
  refine ⟨?_, ?_, ?_, ?_⟩ <;> ac_rfl

theorem invMixColumn_xor (s t : AesWord) : invMixColumn (s.xor t) = (invMixColumn s).xor (invMixColumn t) := by
  simp only [invMixColumn, AesWord.xor, gmul_xor, AesWord.mk.injEq]
  refine ⟨?_, ?_, ?_, ?_⟩ <;> ac_rfl

/-- A word is the XOR of its bytes, each in its own row. -/
theorem word_eq_xor_of_rows (s : AesWord) :
    s = ((AesWord.mk s.b0 0 0 0).xor ⟨0, s.b1, 0, 0⟩).xor (AesWord.xor ⟨0, 0, s.b2, 0⟩ ⟨0, 0, 0, s.b3⟩) := by
  simp [AesWord.xor]

/-- InvMixColumns undoes MixColumns on a column with one byte that need not be zero, whichever its row: every row of the
result is the byte times a sum of products of constants. -/
theorem invMixColumn_mixColumn_row (a : Byte) :
    invMixColumn (mixColumn ⟨a, 0, 0, 0⟩) = ⟨a, 0, 0, 0⟩ ∧ invMixColumn (mixColumn ⟨0, a, 0, 0⟩) = ⟨0, a, 0, 0⟩ ∧
    invMixColumn (mixColumn ⟨0, 0, a, 0⟩) = ⟨0, 0, a, 0⟩ ∧ invMixColumn (mixColumn ⟨0, 0, 0, a⟩) = ⟨0, 0, 0, a⟩ := by
  simp [mixColumn, invMixColumn, gmul_two, gmul_three, gmul_xor, gmul_xtime, ← gmul_xor_right]

/-- By linearity the four rows are enough. -/
theorem invMixColumn_mixColumn (s : AesWord) : invMixColumn (mixColumn s) = s := by
  obtain ⟨h0, -, -, -⟩ := invMixColumn_mixColumn_row s.b0
  obtain ⟨-, h1, -, -⟩ := invMixColumn_mixColumn_row s.b1
  obtain ⟨-, -, h2, -⟩ := invMixColumn_mixColumn_row s.b2
  obtain ⟨-, -, -, h3⟩ := invMixColumn_mixColumn_row s.b3
  rw [word_eq_xor_of_rows s]
  simp only [mixColumn_xor, invMixColumn_xor, h0, h1, h2, h3]

/-! ## States -/

@[simp] theorem invSubBytes_subBytes (s : Block) : invSubBytes (subBytes s) = s := by
  simp [invSubBytes, subBytes, Block.mapCols, AesWord.map]

@[simp] theorem invShiftRows_shiftRows (s : Block) : invShiftRows (shiftRows s) = s := rfl

@[simp] theorem invMixColumns_mixColumns (s : Block) : invMixColumns (mixColumns s) = s := by
  simp [invMixColumns, mixColumns, Block.mapCols, invMixColumn_mixColumn]

/-- Settles O41: byte by byte, by moving each byte back to its place, and column by column. -/
theorem inverseTransformationsUndoTheForwardOnes : Obligations.InverseTransformationsUndoTheForwardOnes := by
  unfold Obligations.InverseTransformationsUndoTheForwardOnes
  exact fun s => ⟨invSubBytes_subBytes s, invShiftRows_shiftRows s, invMixColumns_mixColumns s⟩

end Sys2Proof.Machine
end

section
/-!
SUPPORT. Key expansion (spec/41_block_cipher.md R132). The loop only appends, so a word keeps its value and the words it was
made from; `IsSchedule` is the loop's invariant.
-/

namespace Sys2Proof.Machine

/-! ## The key's words -/

/-- A word read where four bytes are left holds those bytes. -/
theorem bytes_ofBytes {l : List Byte} {i : Nat} (h : i + 4 ≤ l.length) : (AesWord.ofBytes l i).bytes = (l.drop i).take 4 := by
  have hlen : 4 ≤ (l.drop i).length := by rw [List.length_drop]; omega
  have hdrop : AesWord.ofBytes l i = AesWord.ofBytes (l.drop i) 0 := by simp [AesWord.ofBytes, List.getD]
  rw [hdrop]
  match l.drop i, hlen with
  | _ :: _ :: _ :: _ :: _, _ => rfl

/-- The key's own eight words (R132). -/
abbrev keyWords (K : List Byte) : List AesWord := (List.range 8).map fun i => AesWord.ofBytes K (4 * i)

theorem keyWords_getD (K : List Byte) {i : Nat} (hi : i < 8) : (keyWords K).getD i .zero = AesWord.ofBytes K (4 * i) := by
  simp [List.getD, hi]

/-! ## The loop -/

/-- `w` begins with the key's words, and every later word is what R132 makes of the words before it. -/
structure IsSchedule (K : List Byte) (w : List AesWord) : Prop where
  key_prefix : keyWords K <+: w
  recurrence : ∀ i, 8 ≤ i → i < w.length → w.getD i .zero = (w.getD (i - 8) .zero).xor (expandTemp w i)

/-- The word t of an index not past the end is the same after words are appended. -/
theorem expandTemp_append (w v : List AesWord) {i : Nat} (h0 : 0 < i) (hi : i ≤ w.length) :
    expandTemp (w ++ v) i = expandTemp w i := by
  simp only [expandTemp, List.getD_append _ _ _ _ (show i - 1 < w.length by omega)]

/-- A pass of the loop at the end of a schedule makes its next word. -/
theorem isSchedule_expandStep {K : List Byte} {w : List AesWord} (h : IsSchedule K w) :
    IsSchedule K (expandStep w w.length) := by
  refine ⟨h.key_prefix.trans (List.prefix_append _ _), fun i h8 hi => ?_⟩
  rw [expandStep, List.length_append, List.length_singleton] at hi
  rw [expandStep, expandTemp_append _ _ (by omega) (by omega), List.getD_append _ _ _ (i - 8) (by omega)]
  rcases Nat.lt_or_eq_of_le (Nat.le_of_lt_succ hi) with hlt | rfl
  case inl => rw [List.getD_append _ _ _ _ hlt, h.recurrence i h8 hlt]
  case inr => simp [List.getD]

/-- After `n` passes the schedule has `n` words beside the key's. -/
theorem isSchedule_passes (K : List Byte) (n : Nat) :
    ((List.range' 8 n).foldl expandStep (keyWords K)).length = 8 + n ∧
      IsSchedule K ((List.range' 8 n).foldl expandStep (keyWords K)) := by
  induction n with
  | zero => exact ⟨by simp, List.prefix_refl _, fun i h8 hi => absurd hi (by simpa using h8)⟩
  | succ n ih =>
    obtain ⟨hlen, hs⟩ := ih
    rw [List.range'_concat, Nat.one_mul, List.foldl_append, List.foldl_cons, List.foldl_nil]
    constructor
    · rw [expandStep, List.length_append, hlen]; rfl
    · rw [← hlen]
      exact isSchedule_expandStep hs

theorem keyExpansion_length (K : List Byte) : (keyExpansion K).length = 60 := (isSchedule_passes K 52).1

theorem isSchedule_keyExpansion (K : List Byte) : IsSchedule K (keyExpansion K) := (isSchedule_passes K 52).2

/-- The schedule's first words are the key's. -/
theorem keyExpansion_getD (K : List Byte) {i : Nat} (hi : i < 8) : (keyExpansion K).getD i .zero = AesWord.ofBytes K (4 * i) := by
  obtain ⟨v, hv⟩ := (isSchedule_keyExpansion K).key_prefix
  rw [← hv, List.getD_append _ _ _ _ (by simpa using hi), keyWords_getD K hi]

/-- While it fits a byte, x^n is the number 2^n. -/
theorem xtimes_one : ∀ n < 8, xtimes n 0x01#8 = BitVec.ofNat 8 (2 ^ n) := by decide

/-- Settles O42: the loop's invariant after its last pass, with Rcon's first byte as the power of 2 it is. -/
theorem keyExpansionSatisfiesItsRecurrence : Obligations.KeyExpansionSatisfiesItsRecurrence := by
  unfold Obligations.KeyExpansionSatisfiesItsRecurrence
  intro K hK
  refine ⟨keyExpansion_length K, fun i hi => ?_, fun i h8 hi => ?_⟩
  · rw [keyExpansion_getD K hi, bytes_ofBytes (by omega)]
  · rw [← xtimes_one (i / 8 - 1) (by omega)]
    exact (isSchedule_keyExpansion K).recurrence i h8 (by rwa [keyExpansion_length])

end Sys2Proof.Machine
end

section
/-!
SUPPORT. The cipher and its inverse (spec/41_block_cipher.md R133-R135). A decryption round undoes an encryption round up to the
SubBytes and ShiftRows of the round after, so the rounds cancel from the last to the first; the other direction is counting.
-/

namespace Sys2Proof.Machine

@[simp] theorem addRoundKey_addRoundKey (w : List AesWord) (s : Block) (rnd : Nat) :
    addRoundKey w (addRoundKey w s rnd) rnd = s := block_xor_xor s _

/-- A decryption round takes the substituted and shifted end of an encryption round to its substituted and shifted start. -/
theorem decRound_encRound (w : List AesWord) (s : Block) (rnd : Nat) :
    decRound w (shiftRows (subBytes (encRound w s rnd))) rnd = shiftRows (subBytes s) := by
  simp [decRound, encRound]

/-- Rounds cancel in the opposite order. -/
theorem decRounds_encRounds (w : List AesWord) (rnds : List Nat) (s : Block) :
    rnds.reverse.foldl (decRound w) (shiftRows (subBytes (rnds.foldl (encRound w) s))) = shiftRows (subBytes s) := by
  induction rnds generalizing s with
  | nil => rfl
  | cons rnd rnds ih =>
    simp only [List.reverse_cons, List.foldl_append, List.foldl_cons, List.foldl_nil, ih, decRound_encRound]

/-- Under any list of round keys decryption undoes encryption. -/
theorem aesDecWith_aesEncWith (w : List AesWord) (b : Block) : aesDecWith w (aesEncWith w b) = b := by
  rw [aesDecWith, aesEncWith, addRoundKey_addRoundKey, decRounds_encRounds, invShiftRows_shiftRows, invSubBytes_subBytes,
    addRoundKey_addRoundKey]

theorem aesDec_leftInverse (K : List Byte) : Function.LeftInverse (aesDec K) (aesEnc K) := aesDecWith_aesEncWith _

/-! ## Counting -/

theorem word_finite : Finite AesWord :=
  Finite.of_surjective (fun p : Byte × Byte × Byte × Byte => AesWord.mk p.1 p.2.1 p.2.2.1 p.2.2.2)
    fun a => ⟨(a.b0, a.b1, a.b2, a.b3), rfl⟩

theorem block_finite : Finite Block :=
  have := word_finite
  Finite.of_surjective (fun p : AesWord × AesWord × AesWord × AesWord => Block.mk p.1 p.2.1 p.2.2.1 p.2.2.2)
    fun s => ⟨(s.c0, s.c1, s.c2, s.c3), rfl⟩

/-- Encryption loses nothing, so among finitely many blocks it reaches every one. -/
theorem aesEnc_bijective (K : List Byte) : Function.Bijective (aesEnc K) :=
  have := block_finite
  Finite.injective_iff_bijective.mp (aesDec_leftInverse K).injective

theorem aesEnc_rightInverse (K : List Byte) : Function.RightInverse (aesDec K) (aesEnc K) :=
  (aesDec_leftInverse K).rightInverse_of_surjective (aesEnc_bijective K).surjective

/-- Settles O44: the rounds cancel, and the other two laws follow by counting. -/
theorem cipherIsAnInvertiblePair : Obligations.CipherIsAnInvertiblePair := by
  unfold Obligations.CipherIsAnInvertiblePair
  exact fun K => ⟨aesDec_leftInverse K, aesEnc_rightInverse K, aesEnc_bijective K⟩

/-- Settles O43 by running the cipher on the one vector. -/
theorem cipherMeetsTheStandardVector : Obligations.CipherMeetsTheStandardVector := by
  unfold Obligations.CipherMeetsTheStandardVector
  decide +kernel

end Sys2Proof.Machine
end

section
/-!
SUPPORT. Padding (spec/42_encrypt.md R160, R161; 43_decrypt.md R181): what Unpad accepts and returns, said once, and that among
the strings of whole blocks those are the padded ones.
-/

namespace Sys2Proof.Machine

/-- Past a string's end stand the copies appended to it. -/
theorem getD_append_replicate (l : List Byte) (k : Nat) (b : Byte) {i : Nat} (h : l.length ≤ i) (hi : i < l.length + k) :
    (l ++ List.replicate k b).getD i 0 = b := by
  rw [List.getD_append_right _ _ _ _ h, List.getD_replicate b (by omega)]

/-- Unpad undoes the appending of 1 to 16 bytes that each hold their count. -/
theorem unpad_append_replicate {k : Nat} (h1 : 1 ≤ k) (h16 : k ≤ 16) (r : List Byte) :
    unpad (r ++ List.replicate k (BitVec.ofNat 8 k)) = some r := by
  have hlast : (r ++ List.replicate k (BitVec.ofNat 8 k)).getD (r.length + k - 1) 0 = BitVec.ofNat 8 k :=
    getD_append_replicate r k _ (by omega) (by omega)
  have hcount : (BitVec.ofNat 8 k).toNat = k := by rw [BitVec.toNat_ofNat]; omega
  have hrange : ¬ (k < 1 ∨ 16 < k) := by omega
  simp only [unpad, List.length_append, List.length_replicate, hlast, hcount, if_neg hrange, Nat.add_sub_cancel, List.drop_left,
    List.take_left]
  simp

/-- What Unpad returns, with its last byte's count of copies of that byte appended, is its input. -/
theorem eq_append_replicate_of_unpad {m r : List Byte} (hm : 16 ≤ m.length) (h : unpad m = some r) :
    ∃ k, 1 ≤ k ∧ k ≤ 16 ∧ m = r ++ List.replicate k (BitVec.ofNat 8 k) := by
  simp only [unpad] at h
  generalize m.getD (m.length - 1) 0 = b at h
  split_ifs at h with hrange hall
  injection h with h
  have htail : m.drop (m.length - b.toNat) = List.replicate b.toNat b :=
    List.eq_replicate_iff.mpr ⟨by rw [List.length_drop]; omega, by simpa using hall⟩
  refine ⟨b.toNat, by omega, by omega, ?_⟩
  rw [BitVec.ofNat_toNat, BitVec.setWidth_eq, ← htail, ← h, List.take_append_drop]

theorem unpad_pad (p : List Byte) : unpad (pad p) = some p := by
  obtain ⟨h1, h16, -⟩ := padCount_bounds p.length
  exact unpad_append_replicate h1 h16 p

/-- Between 1 and 16 bytes that reach a multiple of 16 are as many as Pad adds. -/
theorem padCount_unique {n k : Nat} (h1 : 1 ≤ k) (h16 : k ≤ 16) (h : (n + k) % 16 = 0) : k = padCount n := by
  unfold padCount
  omega

/-- Among strings of whole blocks Unpad accepts the padded ones only. -/
theorem eq_pad_of_unpad {m r : List Byte} (h16 : m.length % 16 = 0) (hm : m ≠ []) (h : unpad m = some r) : m = pad r := by
  have hpos := List.length_pos_iff.mpr hm
  obtain ⟨k, hk1, hk16, rfl⟩ := eq_append_replicate_of_unpad (by omega) h
  rw [List.length_append, List.length_replicate] at h16
  rw [padCount_unique hk1 hk16 h16, pad]

/-- Settles O45: the laws of Pad by the count of its bytes, and Unpad as its inverse. -/
theorem paddingIsRemovedExactly : Obligations.PaddingIsRemovedExactly := by
  unfold Obligations.PaddingIsRemovedExactly
  refine ⟨fun p => ?_, fun m r h16 hm => ⟨eq_pad_of_unpad h16 hm, ?_⟩⟩
  · obtain ⟨h1, h16, hsum⟩ := padCount_bounds p.length
    have hk : (pad p).length - p.length = padCount p.length := by rw [pad_length_eq]; omega
    rw [hk]
    exact ⟨pad_length_eq p, h1, h16, List.take_left, fun i h hi => getD_append_replicate p _ _ h (by omega), unpad_pad p⟩
  · rintro rfl
    exact unpad_pad r

end Sys2Proof.Machine
end

section
/-!
SUPPORT. ENCRYPT (spec/42_encrypt.md R163-R165): its outcome within and above its capacity, and what a successful one says of
OUT_BUF and OUT_LEN.
-/

namespace Sys2Proof.Machine

/-! ## The outcome -/

/-- On a unit that cannot fail, ENCRYPT within its capacity is finish_ok of the ciphertext. -/
theorem execEncrypt_of_reliable {s : State} (hl : s.unit.inLen.toNat ≤ s.params.maxIn)
    (hf : s.params.cipherFaultPossible = false) : execEncrypt s = .next (s.setUnit (endOk s (ciphertext s.unit))) := by
  rcases execEncrypt_cases s with ⟨h, -⟩ | ⟨-, h, -, -⟩ | ⟨-, h, -, -⟩ | ⟨-, -, e⟩
  · omega
  · cases h.symm.trans hf
  · cases h.symm.trans hf
  · exact e

/-- On a unit that may fail, ENCRYPT within its capacity counts one draw, which chooses the ending (log 2). -/
theorem execEncrypt_of_fallible {s : State} (hl : s.unit.inLen.toNat ≤ s.params.maxIn)
    (hf : s.params.cipherFaultPossible = true) : execEncrypt s = .next (s.setUnit
      (if Config.freeFault s.draws then endErr s .cipherFailure else endOk s (ciphertext s.unit))).countDraw := by
  rcases execEncrypt_cases s with ⟨h, -⟩ | ⟨-, -, hd, e⟩ | ⟨-, -, hd, e⟩ | ⟨-, h, -⟩
  · omega
  · rw [e, hd]; rfl
  · rw [e, hd]; rfl
  · cases h.symm.trans hf

/-- Above its capacity ENCRYPT is LENGTH_EXCEEDED (R224). -/
theorem execEncrypt_of_overlong {s : State} (h : s.params.maxIn < s.unit.inLen.toNat) :
    execEncrypt s = .next (s.setUnit (endErr s .lengthExceeded)) := by
  rcases execEncrypt_cases s with ⟨-, e⟩ | ⟨hl, -⟩ | ⟨hl, -⟩ | ⟨hl, -⟩
  · exact e
  all_goals omega

/-- A unit that ends with the ciphertext ends as R203 says, since the ciphertext fits OUT_BUF. -/
theorem ciphertext_ended {p : Params} {u : UnitState} (hp : p.wf = true) (hm : Memory.wf u.mem)
    (hl : u.inLen.toNat ≤ p.maxIn) : endedOk p u (u.finishOk p (ciphertext u)).scrub (ciphertext u) := by
  obtain ⟨-, hmax, -, -, -⟩ := params_wf_bounds hp
  exact finishOk_ended hm (ciphertext_fits hl) hmax

/-- Settles O46: one of two endings, which the draw chooses where it is made. -/
theorem encryptOutputsTheCiphertext : Obligations.EncryptOutputsTheCiphertext := by
  unfold Obligations.EncryptOutputsTheCiphertext
  intro s hp hm hl
  exact ⟨endOk s (ciphertext s.unit), endErr s .cipherFailure, ciphertext_ended hp hm hl, raise_ended _ _ _,
    execEncrypt_of_reliable hl, execEncrypt_of_fallible hl⟩

/-- Settles O47: the length check comes first. -/
theorem encryptRefusesAnOverlongInput : Obligations.EncryptRefusesAnOverlongInput := by
  unfold Obligations.EncryptRefusesAnOverlongInput
  exact fun s h => ⟨endErr s .lengthExceeded, execEncrypt_of_overlong h, raise_ended _ _ _⟩

/-! ## A successful ENCRYPT -/

/-- A successful ENCRYPT leaves OUT_LEN the length of the ciphertext (R164). -/
theorem encrypt_outLen {s t : State} (hp : s.params.wf = true) (h : exec .encrypt s = .next t)
    (hv : t.unit.status.valid = true) : t.unit.outLen.toNat = (s.unit.inLen.toNat / 16 + 1) * 16 := by
  obtain ⟨-, hl, hu⟩ := encrypt_valid h hv
  obtain ⟨-, hmax, -, -, -⟩ := params_wf_bounds hp
  rw [hu, scrub_outLen, finishOk_outLen, ciphertext_length, BitVec.toNat_ofNat]
  omega

/-- Settles O48: the bounds by arithmetic, since MAX_IN is a multiple of 16. -/
theorem ciphertextLengthLaw : Obligations.CiphertextLengthLaw := by
  unfold Obligations.CiphertextLengthLaw
  intro s t hp h hv
  obtain ⟨-, hl, -⟩ := encrypt_valid h hv
  obtain ⟨h16, -, hmod, -, -⟩ := params_wf_bounds hp
  have hcap : s.params.outCap = s.params.maxIn + 16 := rfl
  rw [encrypt_outLen hp h hv]
  exact ⟨rfl, by omega, by omega, by omega⟩

/-- A successful ENCRYPT leaves the ciphertext and zeros in OUT_BUF (R203). -/
theorem encrypt_output {s t : State} (hp : s.params.wf = true) (hm : Memory.wf s.unit.mem) (h : exec .encrypt s = .next t)
    (hv : t.unit.status.valid = true) : outputIs s.params t.unit (ciphertext s.unit) := by
  obtain ⟨-, hl, hu⟩ := encrypt_valid h hv
  rw [hu]
  exact (ciphertext_ended hp hm hl).1

/-- Settles O49: the two ciphertexts are one, and OUT_LEN and OUT_BUF are what it says. -/
theorem encryptIsDeterministic : Obligations.EncryptIsDeterministic := by
  unfold Obligations.EncryptIsDeterministic
  intro s1 s2 t1 t2 hp1 hp2 hm1 hm2 h1 h2 hv1 hv2 _ hin hkey
  have hsame : ciphertext s1.unit = ciphertext s2.unit := by rw [ciphertext, ciphertext, hkey, hin]
  obtain ⟨hlen1, hout1⟩ := encrypt_output hp1 hm1 h1 hv1
  obtain ⟨hlen2, hout2⟩ := encrypt_output hp2 hm2 h2 hv2
  refine ⟨BitVec.eq_of_toNat_eq ?_, fun i hi1 hi2 => ?_⟩
  · rw [hlen1, hlen2, hsame]
  · rw [hout1 i hi1, hout2 i hi2, hsame]

end Sys2Proof.Machine
end

section
/-!
SUPPORT. What the first blocks of a ciphertext depend on (spec/42_encrypt.md R167): cutting a string to whole blocks and
encrypting it commute, one layer of R162 at a time.
-/

namespace Sys2Proof.Machine

theorem ofBytes_take (l : List Byte) {n i : Nat} (h : i + 4 ≤ n) : AesWord.ofBytes (l.take n) i = AesWord.ofBytes l i := by
  have hget : ∀ j < n, (l.take n).getD j 0 = l.getD j 0 := fun j hj => by
    rw [List.getD, List.getElem?_take_of_lt hj, List.getD]
  rw [AesWord.ofBytes, hget i (by omega), hget (i + 1) (by omega), hget (i + 2) (by omega), hget (i + 3) (by omega),
    AesWord.ofBytes]

/-- Loading sees the first sixteen bytes only (R121). -/
theorem load_take (l : List Byte) {n : Nat} (h : 16 ≤ n) : Block.load (l.take n) = Block.load l := by
  simp (disch := omega) only [Block.load, ofBytes_take]

/-- The first `q` blocks are made of the first 16q bytes. -/
theorem takeBlocks_take (q : Nat) (l : List Byte) : takeBlocks q (l.take (16 * q)) = takeBlocks q l := by
  induction q generalizing l with
  | zero => rfl
  | succ q ih =>
    rw [takeBlocks, takeBlocks, load_take l (by omega), List.drop_take, Nat.mul_succ, Nat.add_sub_cancel, ih]

theorem take_takeBlocks {q n : Nat} (h : q ≤ n) (l : List Byte) : (takeBlocks n l).take q = takeBlocks q l := by
  induction q generalizing n l with
  | zero => rfl
  | succ q ih =>
    cases n with
    | zero => omega
    | succ n => rw [takeBlocks, List.take_succ_cons, takeBlocks, ih (by omega)]

theorem take_blocksOf {q : Nat} {l : List Byte} (h : 16 * q ≤ l.length) :
    (blocksOf l).take q = blocksOf (l.take (16 * q)) := by
  rw [blocksOf, take_takeBlocks (by omega), blocksOf, List.length_take_of_le h, Nat.mul_div_cancel_left q (by omega),
    takeBlocks_take]

/-- An output block depends on its input block and those before it only. -/
theorem take_cbcEncBlocks (e : Block → Block) (iv : Block) (bs : List Block) (q : Nat) :
    (cbcEncBlocks e iv bs).take q = cbcEncBlocks e iv (bs.take q) := by
  induction bs generalizing iv q with
  | nil => simp [cbcEncBlocks]
  | cons b bs ih =>
    cases q with
    | zero => rfl
    | succ q => rw [cbcEncBlocks, List.take_succ_cons, List.take_succ_cons, cbcEncBlocks, ih]

theorem take_bytesOfBlocks (bs : List Block) (q : Nat) : (bytesOfBlocks bs).take (16 * q) = bytesOfBlocks (bs.take q) := by
  induction bs generalizing q with
  | nil => simp
  | cons b bs ih =>
    cases q with
    | zero => rfl
    | succ q =>
      rw [List.take_succ_cons, bytesOfBlocks_cons, bytesOfBlocks_cons, ← ih, Nat.mul_succ, Nat.add_comm, ← store_length b,
        List.take_length_add_append]

/-- The first `q` blocks of a ciphertext are the ciphertext of the first `q` blocks. -/
theorem take_cbcEnc (K : List Byte) (iv : Block) {q : Nat} {m : List Byte} (h : 16 * q ≤ m.length) :
    (cbcEnc K iv m).take (16 * q) = cbcEnc K iv (m.take (16 * q)) := by
  simp only [cbcEnc, cbcEncWith, take_bytesOfBlocks, take_cbcEncBlocks, take_blocksOf h]

/-- Padding leaves the first bytes as they are, and so their ciphertext. -/
theorem take_cbcEnc_pad (K : List Byte) (iv : Block) {q : Nat} {p : List Byte} (h : 16 * q ≤ p.length) :
    (cbcEnc K iv (pad p)).take (16 * q) = cbcEnc K iv (p.take (16 * q)) := by
  rw [take_cbcEnc K iv (by rw [pad_length_eq]; omega), pad, List.take_append_of_le_length h]

/-- Settles O50: each of the four beginnings is the ciphertext of a plaintext's first 16q bytes. -/
theorem sharedPlaintextPrefixGivesSharedCiphertextPrefix :
    Obligations.SharedPlaintextPrefixGivesSharedCiphertextPrefix := by
  unfold Obligations.SharedPlaintextPrefixGivesSharedCiphertextPrefix
  intro K iv p1 p2 q h1 h2 heq
  rw [take_cbcEnc K iv h1, take_cbcEnc K iv h2, take_cbcEnc_pad K iv h1, take_cbcEnc_pad K iv h2, heq]
  exact ⟨rfl, rfl⟩

end Sys2Proof.Machine
end

section
/-!
SUPPORT. CBC_Dec against CBC_Enc (spec/43_decrypt.md R180; 42_encrypt.md R162): each loop undoes the other, block by block,
wherever the block functions undo each other; whole blocks carry that to byte strings.
-/

namespace Sys2Proof.Machine

/-- The block XORed in before encryption is the one XORed out after decryption: the ciphertext block before. -/
theorem cbcDecBlocks_cbcEncBlocks {d e : Block → Block} (h : Function.LeftInverse d e) (iv : Block) (bs : List Block) :
    cbcDecBlocks d iv (cbcEncBlocks e iv bs) = bs := by
  induction bs generalizing iv with
  | nil => rfl
  | cons b bs ih => rw [cbcEncBlocks, cbcDecBlocks, h, block_xor_xor, ih]

theorem cbcEncBlocks_cbcDecBlocks {d e : Block → Block} (h : Function.RightInverse d e) (iv : Block) (bs : List Block) :
    cbcEncBlocks e iv (cbcDecBlocks d iv bs) = bs := by
  induction bs generalizing iv with
  | nil => rfl
  | cons b bs ih => rw [cbcDecBlocks, cbcEncBlocks, block_xor_xor, h, ih]

theorem cbcEnc_eq (K : List Byte) (iv : Block) (m : List Byte) :
    cbcEnc K iv m = bytesOfBlocks (cbcEncBlocks (aesEnc K) iv (blocksOf m)) := rfl

theorem cbcDec_eq (K : List Byte) (iv : Block) (c : List Byte) :
    cbcDec K iv c = bytesOfBlocks (cbcDecBlocks (aesDec K) iv (blocksOf c)) := rfl

/-- CBC_Dec undoes CBC_Enc on whole blocks, since AES_Dec undoes AES_Enc (R135). -/
theorem cbcDec_cbcEnc (K : List Byte) (iv : Block) {m : List Byte} (h : m.length % 16 = 0) :
    cbcDec K iv (cbcEnc K iv m) = m := by
  rw [cbcDec_eq, cbcEnc_eq, blocksOf_bytesOfBlocks, cbcDecBlocks_cbcEncBlocks (aesDec_leftInverse K),
    bytesOfBlocks_blocksOf h]

theorem cbcEnc_cbcDec (K : List Byte) (iv : Block) {m : List Byte} (h : m.length % 16 = 0) :
    cbcEnc K iv (cbcDec K iv m) = m := by
  rw [cbcEnc_eq, cbcDec_eq, blocksOf_bytesOfBlocks, cbcEncBlocks_cbcDecBlocks (aesEnc_rightInverse K),
    bytesOfBlocks_blocksOf h]

theorem cbcEnc_length (K : List Byte) (iv : Block) {m : List Byte} (h : m.length % 16 = 0) :
    (cbcEnc K iv m).length = m.length := by
  rw [cbcEnc, cbcEncWith_length]; omega

theorem cbcDec_length (K : List Byte) (iv : Block) {m : List Byte} (h : m.length % 16 = 0) :
    (cbcDec K iv m).length = m.length := by
  rw [cbcDec, cbcDecWith_length]; omega

/-- Settles O51: the loops undo each other and keep the number of blocks. -/
theorem cbcDecryptionUndoesEncryption : Obligations.CbcDecryptionUndoesEncryption := by
  unfold Obligations.CbcDecryptionUndoesEncryption
  exact fun K iv m h => ⟨cbcDec_cbcEnc K iv h, cbcEnc_cbcDec K iv h, cbcEnc_length K iv h, cbcDec_length K iv h⟩

end Sys2Proof.Machine
end

section
/-!
SUPPORT. Error propagation (spec/43_decrypt.md R187): what block j of a byte string is, layer by layer, and that a block is its
sixteen bytes.
-/

namespace Sys2Proof.Machine

/-! ## A block and its bytes -/

theorem store_load_eq_map (l : List Byte) : (Block.load l).store = (List.range 16).map fun r => l.getD r 0 := rfl

/-- Byte i of a string is byte i mod 16 of its block i div 16. -/
theorem getD_eq_store_load (l : List Byte) (i : Nat) :
    l.getD i 0 = (Block.load (l.drop (16 * (i / 16)))).store.getD (i % 16) 0 := by
  have hr : i % 16 < 16 := Nat.mod_lt i (by omega)
  simp [store_load_eq_map, List.getD, hr, Nat.div_add_mod]

/-- Two strings have the same block `q` exactly when they have the same bytes there. -/
theorem load_drop_eq_iff {c d : List Byte} {q : Nat} :
    Block.load (c.drop (16 * q)) = Block.load (d.drop (16 * q)) ↔ ∀ i, i / 16 = q → c.getD i 0 = d.getD i 0 := by
  constructor
  · rintro h i rfl
    rw [getD_eq_store_load c, getD_eq_store_load d, h]
  · intro h
    have hstore : (Block.load (c.drop (16 * q))).store = (Block.load (d.drop (16 * q))).store := by
      rw [store_load_eq_map, store_load_eq_map]
      refine List.map_congr_left fun r hr => ?_
      simpa [List.getD] using h (16 * q + r) (by have := List.mem_range.mp hr; omega)
    rw [← load_store (Block.load (c.drop (16 * q))), hstore, load_store]

/-! ## Block j -/

theorem takeBlocks_getD {n j : Nat} (h : j < n) (l : List Byte) :
    (takeBlocks n l).getD j .zero = Block.load (l.drop (16 * j)) := by
  induction n generalizing j l with
  | zero => omega
  | succ n ih =>
    cases j with
    | zero => rfl
    | succ j => rw [takeBlocks, List.getD_cons_succ, ih (by omega), List.drop_drop, Nat.mul_succ, Nat.add_comm]

theorem blocksOf_getD {l : List Byte} {j : Nat} (h16 : l.length % 16 = 0) (h : 16 * j < l.length) :
    (blocksOf l).getD j .zero = Block.load (l.drop (16 * j)) :=
  takeBlocks_getD (by omega) l

/-- Block j of a decryption: block j decrypted, XORed with the one before it, the IV standing before block 0. -/
theorem cbcDecBlocks_getD (d : Block → Block) (iv : Block) {cs : List Block} {j : Nat} (h : j < cs.length) :
    (cbcDecBlocks d iv cs).getD j .zero = (d (cs.getD j .zero)).xor ((iv :: cs).getD j .zero) := by
  induction cs generalizing iv j with
  | nil => cases h
  | cons c cs ih =>
    cases j with
    | zero => rfl
    | succ j =>
      rw [cbcDecBlocks, List.getD_cons_succ, ih c (Nat.lt_of_succ_lt_succ h), List.getD_cons_succ, List.getD_cons_succ]

/-- R187's formula. -/
theorem load_drop_cbcDec (K : List Byte) (iv : Block) {c : List Byte} {j : Nat} (h16 : c.length % 16 = 0)
    (hj : 16 * j < c.length) : Block.load ((cbcDec K iv c).drop (16 * j)) =
      (aesDec K (Block.load (c.drop (16 * j)))).xor (if j = 0 then iv else Block.load (c.drop (16 * (j - 1)))) := by
  have hlen := cbcDec_length K iv h16
  have hbefore : (iv :: blocksOf c).getD j .zero = if j = 0 then iv else Block.load (c.drop (16 * (j - 1))) := by
    cases j with
    | zero => rfl
    | succ j => exact blocksOf_getD h16 (by omega)
  rw [← blocksOf_getD (by rw [hlen, h16]) (by rw [hlen]; exact hj), cbcDec_eq, blocksOf_bytesOfBlocks,
    cbcDecBlocks_getD _ _ (by rw [blocksOf, takeBlocks_length]; omega), blocksOf_getD h16 hj, hbefore]

/-- Settles O52: block q of a decryption is made of ciphertext blocks q and q-1. -/
theorem ciphertextChangesSpreadToTwoBlocks : Obligations.CiphertextChangesSpreadToTwoBlocks := by
  unfold Obligations.CiphertextChangesSpreadToTwoBlocks
  refine ⟨fun K iv c j => load_drop_cbcDec K iv, fun K iv c d j hlen h16 hsame i hj hj1 => ?_⟩
  have h16d : d.length % 16 = 0 := by rw [← hlen, h16]
  have hblock : ∀ q, q ≠ j → Block.load (c.drop (16 * q)) = Block.load (d.drop (16 * q)) := fun q hq =>
    load_drop_eq_iff.mpr fun k hk => hsame k (by omega)
  by_cases hi : 16 * (i / 16) < c.length
  · refine load_drop_eq_iff.mp ?_ i rfl
    rw [load_drop_cbcDec K iv h16 hi, load_drop_cbcDec K iv h16d (by omega), hblock _ hj]
    split_ifs with h0
    · rfl
    · rw [hblock (i / 16 - 1) (by omega)]
  · rw [List.getD_eq_default _ _ (by rw [cbcDec_length K iv h16]; omega),
      List.getD_eq_default _ _ (by rw [cbcDec_length K iv h16d]; omega)]

end Sys2Proof.Machine
end

section
/-!
SUPPORT. DECRYPT (spec/43_decrypt.md R182-R184): its outcomes in the order of 60_exceptions.md R224, and the round
trip through ENCRYPT.
-/

namespace Sys2Proof.Machine

/-! ## The outcome -/

/-- A length of no whole blocks is INVALID_CIPHERTEXT_LENGTH, whatever its size. -/
theorem execDecrypt_of_misshapen {s : State} (h : s.unit.inLen.toNat = 0 ∨ s.unit.inLen.toNat % 16 ≠ 0) :
    execDecrypt s = .next (s.setUnit (endErr s .invalidCiphertextLength)) := by
  rcases execDecrypt_cases s with ⟨-, e⟩ | ⟨h0, h16, -⟩ | ⟨h0, h16, -⟩
  · exact e
  all_goals omega

/-- Whole blocks above MAX_IN are LENGTH_EXCEEDED. -/
theorem execDecrypt_of_overlong {s : State} (h0 : 0 < s.unit.inLen.toNat) (h16 : s.unit.inLen.toNat % 16 = 0)
    (h : s.params.maxIn < s.unit.inLen.toNat) : execDecrypt s = .next (s.setUnit (endErr s .lengthExceeded)) := by
  rcases execDecrypt_cases s with ⟨hbad, -⟩ | ⟨-, -, -, e⟩ | ⟨-, -, hl, -⟩
  · omega
  · exact e
  · omega

/-- On a loadable length Unpad decides the ending. -/
theorem execDecrypt_of_loadable {s : State} (h0 : 0 < s.unit.inLen.toNat) (h16 : s.unit.inLen.toNat % 16 = 0)
    (hl : s.unit.inLen.toNat ≤ s.params.maxIn) : execDecrypt s = .next (s.setUnit
      (match unpad (decrypted s.unit) with | some r => endOk s r | none => endErr s .paddingValidationFailure)) := by
  rcases execDecrypt_cases s with ⟨hbad, -⟩ | ⟨-, -, hover, -⟩ | ⟨-, -, -, ⟨r, hr, e⟩ | ⟨hr, e⟩⟩
  · omega
  · omega
  · rw [e, hr]
  · rw [e, hr]

/-- A unit that ends with what Unpad returned ends as R203 says, since that is shorter than the input. -/
theorem unpadded_ended {p : Params} {u : UnitState} {r : List Byte} (hp : p.wf = true) (hm : Memory.wf u.mem)
    (h0 : 0 < u.inLen.toNat) (h16 : u.inLen.toNat % 16 = 0) (hl : u.inLen.toNat ≤ p.maxIn)
    (hr : unpad (decrypted u) = some r) : endedOk p u (u.finishOk p r).scrub r := by
  obtain ⟨-, hmax, -, -, -⟩ := params_wf_bounds hp
  obtain ⟨hshort, -⟩ := unpad_decrypted_length h0 h16 hr
  have hcap : p.outCap = p.maxIn + 16 := rfl
  exact finishOk_ended hm (by omega) hmax

/-- DECRYPT of a loadable length that Unpad accepts is finish_ok of what it returns. -/
theorem decrypt_ended {s : State} {r : List Byte} (hp : s.params.wf = true) (hm : Memory.wf s.unit.mem)
    (h0 : 0 < s.unit.inLen.toNat) (h16 : s.unit.inLen.toNat % 16 = 0) (hl : s.unit.inLen.toNat ≤ s.params.maxIn)
    (hr : unpad (decrypted s.unit) = some r) :
    exec .decrypt s = .next (s.setUnit (endOk s r)) ∧ endedOk s.params s.unit (endOk s r) r := by
  refine ⟨?_, unpadded_ended hp hm h0 h16 hl hr⟩
  rw [exec, execDecrypt_of_loadable h0 h16 hl, hr]

/-- Settles O53: OUT_LEN is the length of what Unpad returned. -/
theorem decryptOutputsThePlaintext : Obligations.DecryptOutputsThePlaintext := by
  unfold Obligations.DecryptOutputsThePlaintext
  intro s r hp hm h16 h0 hl hr
  obtain ⟨hexec, hended⟩ := decrypt_ended hp hm h0 h16 hl hr
  have ⟨⟨houtLen, _⟩, _⟩ := hended
  obtain ⟨hlt, hle⟩ := unpad_decrypted_length h0 h16 hr
  exact ⟨endOk s r, hexec, hended, by omega, by omega⟩

/-- Settles O54: the three failures, each in its place in the order. -/
theorem decryptReportsItsFailuresInOrder : Obligations.DecryptReportsItsFailuresInOrder := by
  unfold Obligations.DecryptReportsItsFailuresInOrder
  refine fun s => ⟨fun h => ?misshapen, fun h0 h16 h => ?overlong, fun h0 h16 hl hr => ?padding⟩
  case misshapen => exact ⟨_, execDecrypt_of_misshapen h, raise_ended _ _ _⟩
  case overlong => exact ⟨_, execDecrypt_of_overlong h0 h16 h, raise_ended _ _ _⟩
  case padding =>
    have hnone : unpad (decrypted s.unit) = none := hr
    refine ⟨endErr s .paddingValidationFailure, ?_, raise_ended _ _ _⟩
    rw [exec, execDecrypt_of_loadable h0 h16 hl, hnone]

/-! ## The round trip -/

/-- OUT_BUF[0..OUT_LEN) is the result. -/
theorem slice_of_outputIs {p : Params} {u : UnitState} {r : List Byte} (h : outputIs p u r) (hr : r.length ≤ p.outCap) :
    Memory.slice u.mem outBase u.outLen.toNat = r := by
  obtain ⟨hlen, hread⟩ := h
  refine List.ext_getElem (by rw [slice_length, hlen]) fun i hi hir => ?_
  rw [← List.getD_eq_getElem _ 0 hi, ← List.getD_eq_getElem _ 0 hir, slice_getD _ _ _ (by omega), hread i (by omega)]

/-- Decrypting the ciphertext of a unit under its key gives its padded input. -/
theorem cbcDec_ciphertext (u : UnitState) : cbcDec u.key iv0 (ciphertext u) = pad u.inBytes :=
  cbcDec_cbcEnc u.key iv0 (by rw [pad_length_eq]; omega)

/-- Settles O55: what DECRYPT unpads is the padded plaintext. -/
theorem decryptReturnsWhatWasEncrypted : Obligations.DecryptReturnsWhatWasEncrypted := by
  unfold Obligations.DecryptReturnsWhatWasEncrypted
  intro s t d hp hm henc hv hpd hmd hkey hlen hl hin
  obtain ⟨-, hfit, -⟩ := encrypt_valid henc hv
  have houtLen := encrypt_outLen hp henc hv
  have hloaded : d.unit.inBytes = ciphertext s.unit :=
    hin.trans (slice_of_outputIs (encrypt_output hp hm henc hv) (ciphertext_fits hfit))
  have hpad : unpad (decrypted d.unit) = some s.unit.inBytes := by
    rw [decrypted, hkey, hloaded, cbcDec_ciphertext, unpad_pad]
  rw [← hlen] at houtLen
  exact ⟨_, decrypt_ended hpd hmd (by omega) (by omega) hl hpad⟩

end Sys2Proof.Machine
end

section
/-!
SUPPORT. Completions (spec/44_control.md R201-R206): the engine's turn runs the pending command, whatever it is, and ends it; an
illegal word ends in ILLEGAL_COMMAND (R205).
-/

namespace Sys2Proof.Machine

/-! ## The engine's turn (R201, R202) -/

/-- The engine of a busy unit runs the instruction its pending word decodes to. -/
theorem engineTurn_of_decode {s : State} {u : Nat} {v : UnitState} {i : Instr} (hv : s.units[u]? = some v)
    (hb : v.status.busy = true) (hd : decode (.cmd v.pendingCmd) = .ok i) : engineTurn u s = exec i { s with active := u } :=
  (engineTurn_of_busy hv hb).trans (complete_of_decode hd _)

/-- The engine of an idle unit is not enabled (log 10). -/
theorem engineTurn_of_idle {s : State} {u : Nat} {v : UnitState} (hv : s.units[u]? = some v) (hb : v.status.busy = false) :
    engineTurn u s = .next s := by
  rcases engineTurn_cases u s with ⟨-, e⟩ | ⟨w, hw, hbusy, -⟩
  · exact e
  · cases hv.symm.trans hw
    cases hb.symm.trans hbusy

/-- With nothing scheduled, the first busy unit's engine moves (log 3). -/
theorem step_of_first_busy {s : State} {u : Nat} (ht : s.turns = [])
    (hu : s.units.findIdx? (fun v => v.status.busy) = some u) : step s = engineTurn u s := by
  simp only [step, turn, ht, dueTurn, hu, takeTurn]

/-- Settles O7: each clause's turn is the engine's, of a busy unit in the first two and of an idle one in the third. -/
theorem engineStepRunsThePendingCommand : Obligations.EngineStepRunsThePendingCommand := by
  unfold Obligations.EngineStepRunsThePendingCommand
  refine fun s u v hv => ⟨fun ts i ht hb hd => ?scheduled, fun i ht hu hd => ?due, fun ts ht hb => ?idle⟩
  case scheduled => exact (step_of_turns ht).trans (engineTurn_of_decode (s := { s with turns := ts }) hv hb hd)
  case due =>
    obtain ⟨hlt, hbusy, -⟩ := List.findIdx?_eq_some_iff_getElem.mp hu
    cases (List.getElem?_eq_getElem hlt).symm.trans hv
    exact (step_of_first_busy ht hu).trans (engineTurn_of_decode hv hbusy hd)
  case idle => exact (step_of_turns ht).trans (engineTurn_of_idle (s := { s with turns := ts }) hv hb)

/-! ## Endings (R203-R206) -/

/-- A change of the active unit stands in that unit's place. -/
theorem setUnit_getElem?_self {s : State} {v : UnitState} (hv : s.units[s.active]? = some v) (u : UnitState) :
    (s.setUnit u).units[s.active]? = some u :=
  List.getElem?_set_self (List.getElem?_eq_some_iff.mp hv).1

/-- Settles O21: every ending, of a legal command or not, is `Completed`. -/
theorem everyCompletionEndsItsCommand : Obligations.EveryCompletionEndsItsCommand := by
  unfold Obligations.EveryCompletionEndsItsCommand
  intro u s v hv hb
  obtain ⟨t, v', ht, ⟨n, rfl⟩, hbusy, hdone, haccErr, hbusyViol, hscrub⟩ :=
    complete_completed v.pendingCmd { s with active := u }
  rw [unit_eq_of_getElem? (s := { s with active := u }) hv] at haccErr hbusyViol
  exact ⟨_, v', (engineTurn_of_busy hv hb).trans ht, setUnit_getElem?_self (s := { s with active := u }) hv v', hbusy, hdone,
    haccErr, hbusyViol, hscrub⟩

/-- A word that decodes to no command completes as ILLEGAL (R202, R205). -/
theorem complete_of_illegal {w : Word32} (hd : decode (.cmd w) = .error (.illegalCommand w)) (s : State) :
    complete w s = .next (s.setUnit (endErr s .illegalCommand)) := by
  simp only [complete, hd, fail_eq]

/-- Settles O57: a word outside 1 to 4 does not decode (O4), and ILLEGAL is one of the failures of R221. -/
theorem illegalCommandsEndInCodeFive : Obligations.IllegalCommandsEndInCodeFive := by
  unfold Obligations.IllegalCommandsEndInCodeFive
  intro s u v hv hb hw
  have hillegal : decode (.cmd v.pendingCmd) = .error (.illegalCommand v.pendingCmd) := by
    rw [decode_cmd_eq_illegal_iff, decode_cmd_ok_iff]
    rcases hw with h0 | h5
    · simp [h0]
    · omega
  have hunit := unit_eq_of_getElem? (s := { s with active := u }) hv
  refine ⟨_, _, (engineTurn_of_busy hv hb).trans (complete_of_illegal hillegal _),
    setUnit_getElem?_self (s := { s with active := u }) hv _, ?_⟩
  rw [endErr, hunit]
  exact raise_ended s.params v .illegalCommand

/-! ## ZEROIZE (R204) -/

/-- The unit ZEROIZE leaves. -/
abbrev zeroized (p : Params) (u : UnitState) : UnitState := ((u.clearInputs p).finishOk p []).scrub

/-- ZEROIZE keeps only entries outside every buffer (R51). -/
theorem mem_zeroized {p : Params} {u : UnitState} {c : Host.Cell} (h : c ∈ (zeroized p u).mem) : c ∈ u.mem ∧
    (c.1 < passBase ∨ passBase + 32 ≤ c.1) ∧ (c.1 < inBase ∨ inBase + p.maxIn ≤ c.1) ∧
      (c.1 < outBase ∨ outBase + p.outCap ≤ c.1) := by
  have h : c ∈ Memory.clear (u.clearInputs p).mem outBase (outBase + p.outCap) := h
  simp only [clearInputs_mem, mem_clear] at h
  obtain ⟨⟨⟨hmem, hpass⟩, hin⟩, hout⟩ := h
  exact ⟨hmem, hpass, hin, hout⟩

/-- Every buffer byte reads 0x00 after ZEROIZE. -/
theorem read_zeroized {p : Params} (u : UnitState) {off : Nat} (h : (0x20 ≤ off ∧ off ≤ 0x3F) ∨
    (0x10000 ≤ off ∧ off < 0x10000 + p.maxIn) ∨ (0x20000 ≤ off ∧ off < 0x20000 + p.outCap)) :
    Memory.read (zeroized p u).mem off = 0 := by
  refine read_of_not_listed fun c hc => ?_
  obtain ⟨-, hpass, hin, hout⟩ := mem_zeroized hc
  have hb := bases
  omega

/-- A unit in order has entries for buffer bytes only, so ZEROIZE leaves it none. -/
theorem zeroized_mem_eq_nil {p : Params} {u : UnitState} (h : u.inv p) : (zeroized p u).mem = [] := by
  obtain ⟨-, hbuf, -⟩ := h
  refine List.eq_nil_iff_forall_not_mem.mpr fun c hc => ?_
  obtain ⟨hmem, hpass, hin, hout⟩ := mem_zeroized hc
  have hb := bases
  rcases hbuf c hmem with hr | hr | hr
  · have := region_eq_pass.mp hr; omega
  · have := region_eq_inp.mp hr; omega
  · have := region_out_bounds hr; omega

/-- Settles O56: the unit is `zeroized`, whose registers are read off one by one. -/
theorem zeroizeClearsBuffersAndLengths : Obligations.ZeroizeClearsBuffersAndLengths := by
  unfold Obligations.ZeroizeClearsBuffersAndLengths
  exact fun s => ⟨zeroized s.params s.unit, execZeroize_eq s, rfl, rfl, rfl, ⟨rfl, rfl, rfl, rfl, rfl⟩,
    fun _ => read_zeroized s.unit, zeroized_mem_eq_nil, rfl⟩

end Sys2Proof.Machine
end

section
/-!
SUPPORT. Acceptance (spec/44_control.md R200): a write to CMD while idle.
-/

namespace Sys2Proof.Machine

/-- A write to CMD while idle is accept of the datum, whatever it is (R57, R200). -/
theorem memWrite_cmd {s : State} (hb : s.unit.status.busy = false) (v : Word32) :
    memWrite offCmd .b4 v s = s.onUnit (.accept v) := by
  have hm : malformed s.params offCmd .b4 true = false := wellformed_reg_write s.params (.inl rfl)
  simp [memWrite, onUnit_eq, UnitState.memWrite, hm, hb]

/-- Settles O35: accept, written out. -/
theorem commandWritesAreAccepted : Obligations.CommandWritesAreAccepted := by
  unfold Obligations.CommandWritesAreAccepted
  exact fun s v hb => congrArg Host.Outcome.next (memWrite_cmd hb v)

end Sys2Proof.Machine
end

section
/-!
SUPPORT. Host accesses (spec/45_host_access.md R210-R216): a well-formed write while idle reads back, cut to its width; and the
step of a master whose next operation is one BUSREQ.
-/

namespace Sys2Proof.Machine

/-! ## A write read back (R216) -/

/-- The low `k` bits of a word, as a mask keeps them. -/
theorem ofNat_mod_two_pow (v : Word32) {k : Nat} (hk : k ≤ 32) :
    BitVec.ofNat 32 (v.toNat % 2 ^ k) = v &&& BitVec.ofNat 32 (2 ^ k - 1) := by
  have hpow : 2 ^ k ≤ 2 ^ 32 := Nat.pow_le_pow_right (by decide) hk
  have hlt : 2 ^ k - 1 < 2 ^ 32 := (Nat.sub_one_lt (Nat.two_pow_pos k).ne').trans_le hpow
  apply BitVec.eq_of_toNat_eq
  rw [BitVec.toNat_and, BitVec.toNat_ofNat, BitVec.toNat_ofNat, Nat.mod_eq_of_lt hlt, Nat.and_two_pow_sub_one_eq_mod,
    Nat.mod_eq_of_lt ((Nat.mod_le _ _).trans_lt v.isLt)]

/-- A buffer write while idle reads back, cut to its width (R55, R56). -/
theorem memRead_memWrite_buffer {s : State} {off : Nat} {w : Width} (hl : s.live) (hwf : Memory.wf s.unit.mem)
    (hb : s.unit.status.busy = false) (hr : region s.params off = .pass ∨ region s.params off = .inp)
    (hal : off % w.bytes = 0) (v : Word32) :
    memRead off w (memWrite off w v s) = (memWrite off w v s).respond (v &&& BitVec.ofNat 32 (2 ^ (8 * w.bytes) - 1)) := by
  have hw : 8 * w.bytes ≤ 32 := by cases w <;> decide
  rw [memWrite_buffer v hal hr hb, memRead_buffer (s := s.setUnit _) hal (hr.imp_right .inl), unit_setUnit hl, readWord_writeWord hwf,
    ofNat_mod_two_pow v hw]

/-- A length register written while idle reads back (R57). -/
theorem memRead_memWrite_length {s : State} {off : Nat} (hl : s.live) (hb : s.unit.status.busy = false)
    (ho : off = offPassLen ∨ off = offInLen) (v : Word32) :
    memRead off .b4 (memWrite off .b4 v s) = (memWrite off .b4 v s).respond v := by
  have hne : off ≠ offOutLen := by rcases ho with rfl | rfl <;> decide
  rcases ho with rfl | rfl
  · rw [memWrite_passLen hb, memRead_reg (by decide) (by decide) fun h => absurd h hne, unit_setUnit hl]
    rfl
  · rw [memWrite_inLen hb, memRead_reg (by decide) (by decide) fun h => absurd h hne, unit_setUnit hl]
    rfl

/-- Settles O36: an access narrower than a word reaches a buffer only, a 4-byte one a buffer or a length register. -/
theorem writtenValuesReadBack : Obligations.WrittenValuesReadBack := by
  unfold Obligations.WrittenValuesReadBack
  intro s t off v hl hwf hb htarget
  have readback : ∀ (w : Width) (x : Word32),
      memRead off.toNat w (memWrite off.toNat w v s) = (memWrite off.toNat w v s).respond x →
      exec (writeInstr w off v) s = .next t → exec (readInstr w off) t = .next (t.respond x) := by
    intro w x hx ht
    cases (exec_writeInstr w off v s).symm.trans ht
    exact (exec_readInstr w off _).trans (congrArg _ hx)
  have targets : (region s.params off.toNat = .pass ∨ region s.params off.toNat = .inp) ∨
      (off.toNat = offPassLen ∨ off.toNat = offInLen) := by
    rcases htarget with h | h | rfl | rfl
    · exact .inl (.inl h)
    · exact .inl (.inr h)
    · exact .inr (.inl rfl)
    · exact .inr (.inr rfl)
  have buffer : region s.params off.toNat ≠ .reg →
      region s.params off.toNat = .pass ∨ region s.params off.toNat = .inp := by
    refine fun hreg => targets.resolve_right fun ho => hreg (region_eq_reg.mpr ?_)
    have := offsets
    omega
  refine ⟨fun hreg => readback .b1 _ ?byte, fun hreg hal => readback .b2 _ ?half, fun hal => readback .b4 _ ?word⟩
  case byte => exact memRead_memWrite_buffer hl hwf hb (buffer hreg) (Nat.mod_one _) v
  case half => exact memRead_memWrite_buffer (w := .b2) hl hwf hb (buffer hreg) hal v
  case word =>
    rcases targets with hr | ho
    · have hall : v &&& BitVec.ofNat 32 (2 ^ (8 * Width.b4.bytes) - 1) = v := BitVec.and_allOnes
      exact (memRead_memWrite_buffer (w := .b4) hl hwf hb hr hal v).trans (congrArg _ hall)
    · exact memRead_memWrite_length hl hb ho v

/-! ## The words of the worked examples -/

/-- Settles O5: each word is the encoding of the instruction the spec names. -/
theorem workedExampleWordsDecode : Obligations.WorkedExampleWordsDecode := by
  unfold Obligations.WorkedExampleWordsDecode
  exact ⟨decode_encode .deriveKey, decode_encode (.rd8 0x20001#18), decode_encode (.rd16 0x10002#18),
    decode_encode (.rd32 0x0000C#18), decode_encode (.wr8 0x00025#18 0x74#32), decode_encode (.wr16 0x10000#18 0x6568#32),
    decode_encode (.wr32 0x00008#18 0x1#32)⟩

/-! ## The step of a request (R216) -/

/-- A master whose next operation is a BUSREQ that decodes runs that instruction on the unit the window names. -/
theorem hostTurn_of_decode {s : State} {m window u : Nat} {req : BitVec 53} {rest : List HostOp} {i : Instr}
    (hm : s.hosts.getD m [] = .request window req :: rest) (hu : unitAt s.params window = some u)
    (hd : decode (.busreq req) = .ok i) :
    hostTurn m s = exec i { s with master := m, active := u, hosts := s.hosts.set m rest } := by
  rw [hostTurn_of_head hm hu, runHostOp_request, issue_of_decode hd]

/-- With nothing scheduled and no unit busy, the first master with an operation left moves (log 3). -/
theorem step_of_first_master {s : State} {m : Nat} (ht : s.turns = [])
    (hidle : s.units.findIdx? (fun v => v.status.busy) = none) (hm : s.hosts.findIdx? (fun h => !h.isEmpty) = some m) :
    step s = hostTurn m s := by
  simp only [step, turn, ht, dueTurn, hidle, hm, Option.map_some, takeTurn]

/-- Settles O6: the scheduled turn and the due one are both the master's, which runs its request. -/
theorem hostStepRunsTheDecodedInstruction : Obligations.HostStepRunsTheDecodedInstruction := by
  unfold Obligations.HostStepRunsTheDecodedInstruction
  refine fun s m window req rest u i hm hu hd => ⟨fun ts ht => ?scheduled, fun ht hidle hfirst => ?due⟩
  case scheduled => exact (step_of_turns ht).trans (hostTurn_of_decode (s := { s with turns := ts }) hm hu hd)
  case due => exact (step_of_first_master ht hidle hfirst).trans (hostTurn_of_decode hm hu hd)

end Sys2Proof.Machine
end

section
/-!
SUPPORT. What a step answers (spec/60_exceptions.md R235): a next state, or the one fault of the model, which a master's turn
raises at a window of no unit (log 8). One lemma per agent's turn, then the step, then the statement.
-/

namespace Sys2Proof.Machine

/-- `o` is a next state, or the fault of some operation of a master of `s` whose window belongs to no unit (log 8). -/
abbrev AnswersOrMissesAUnit (s : State) (o : Host.Outcome State Fault Refusal) : Prop :=
  (∃ t, o = .next t) ∨
    ∃ program ∈ s.hosts, ∃ op ∈ program, unitAt s.params op.window = none ∧ o = .fault .noUnitAtWindow

/-- A program that is not empty is some master's own, not the default of the look-up. -/
theorem program_mem_hosts {s : State} {m : Nat} {op : HostOp} {rest : List HostOp}
    (h : s.hosts.getD m [] = op :: rest) : op :: rest ∈ s.hosts := by
  rw [List.getD_eq_getElem?_getD] at h
  cases hm : s.hosts[m]? with
  | none => simp [hm] at h
  | some program =>
    rw [hm, Option.getD_some] at h
    exact h ▸ List.mem_of_getElem? hm

theorem hostTurn_answers (m : Nat) (s : State) : AnswersOrMissesAUnit s (hostTurn m s) := by
  rcases hostTurn_cases m s with ⟨-, e⟩ | ⟨op, rest, hm, hu, e⟩ | ⟨op, rest, u, t, -, -, -, e⟩
  · exact .inl ⟨_, e⟩
  · exact .inr ⟨_, program_mem_hosts hm, op, List.mem_cons_self, hu, e⟩
  · exact .inl ⟨_, e⟩

/-- An engine addresses no window: its completion always answers. -/
theorem engineTurn_next (u : Nat) (s : State) : ∃ t, engineTurn u s = .next t := by
  rcases engineTurn_cases u s with ⟨-, e⟩ | ⟨v, -, -, e⟩
  · exact ⟨s, e⟩
  · obtain ⟨t, -, ht, -⟩ := complete_next v.pendingCmd { s with active := u }
    exact ⟨t, e.trans ht⟩

theorem takeTurn_answers (a : Turn) (s : State) : AnswersOrMissesAUnit s (takeTurn a s) := by
  cases a with
  | host m => exact hostTurn_answers m s
  | engine u => exact .inl (engineTurn_next u s)
  | rst u => exact .inl ⟨s.resetUnit u, rfl⟩
  | rstAll => exact .inl ⟨s.resetAll, rfl⟩

/-- A scheduled turn starts from `s` with its schedule shortened, which neither the programs nor the windows depend on. -/
theorem step_answers (s : State) : AnswersOrMissesAUnit s (step s) := by
  rcases step_cases s with ⟨a, ts, -, e⟩ | ⟨a, -, -, e⟩ | ⟨-, e⟩ <;> rw [e]
  · exact takeTurn_answers a { s with turns := ts }
  · exact takeTurn_answers a s
  · exact .inl ⟨s, rfl⟩

/-- Settles O16: a meaning answers by its shape; a step's only other answer is the fault of a master that misses every unit,
which the premise of the second clause excludes and which is no refusal. -/
theorem everyStepAnswersANextState : Obligations.EveryStepAnswersANextState := by
  unfold Obligations.EveryStepAnswersANextState
  refine ⟨fun i s => ?exec, fun s hwindows => ?step, fun s r hrefused => ?refused⟩
  case exec =>
    obtain ⟨t, ht, -⟩ := exec_shaped i s
    exact ⟨t, ht⟩
  case step =>
    refine (step_answers s).resolve_right ?_
    rintro ⟨program, hprogram, op, hop, hnone, -⟩
    simpa [hnone] using hwindows program hprogram op hop
  case refused =>
    rcases step_answers s with ⟨t, e⟩ | ⟨-, -, -, -, -, e⟩ <;> cases e.symm.trans hrefused

end Sys2Proof.Machine
end

section
/-!
SUPPORT. Reset (spec/70_reset_and_hazards.md R250-R252, 60_exceptions.md R232): the state it leaves is in order, and RST puts
its unit in it whatever the unit held.
-/

namespace Sys2Proof.Machine

/-- After reset there are N_UNITS units, each of them in order, and the active one is among them (R9, R20). -/
theorem resetWith_inv {p : Params} (hp : p.wf = true) : (State.resetWith p).inv := by
  obtain ⟨-, -, -, hunits, -⟩ := params_wf_bounds hp
  refine ⟨hp, List.length_replicate, hunits, fun u hu => ?_⟩
  rw [List.eq_of_mem_replicate hu]
  exact unit_reset_inv p

/-- Settles O14: the parameters of `State.reset` (log 1) are legal. -/
theorem resetIsInOrder : Obligations.ResetIsInOrder := by
  unfold Obligations.ResetIsInOrder
  exact ⟨fun p => resetWith_inv, resetWith_inv (by decide)⟩

/-- Settles O13: each clause's turn replaces units by `UnitState.reset`, in their places, and nothing else. -/
theorem resetInputDiscardsTheCommandInFlight : Obligations.ResetInputDiscardsTheCommandInFlight := by
  unfold Obligations.ResetInputDiscardsTheCommandInFlight
  refine fun s ts => ⟨fun u ht => ⟨_, step_of_turns ht, ?self, ?other, rfl, rfl, rfl⟩,
    fun ht => ⟨_, step_of_turns ht, ?every, List.length_map _, rfl, rfl, rfl⟩⟩
  case self => exact fun hu => List.getElem?_set_self hu
  case other => exact fun v hv => List.getElem?_set_ne (Ne.symm hv)
  case every =>
    intro u hu
    simp [hu]

end Sys2Proof.Machine
end

section
/-!
SUPPORT. `wait` (spec/30_encoding.md R92, 70_reset_and_hazards.md R256): a poll of an idle unit's STATUS goes on exactly when
the unit has DONE 1, which a completion leaves (44_control.md R201).
-/

namespace Sys2Proof.Machine

/-- The mask and value of `wait` ask for BUSY 0 and DONE 1 (R25, R92). -/
theorem statusWord_and_three_eq_two_iff (st : Status) :
    st.word &&& 0x3#32 = 0x2#32 ↔ st.busy = false ∧ st.done = true := by
  obtain ⟨hbusy, hdone, -⟩ := statusWordHasTheTabulatedLayout st
  constructor
  case mp =>
    intro h
    have hbit : ∀ i, (st.word &&& 0x3#32).getLsbD i = (0x2#32).getLsbD i := fun i => by rw [h]
    simpa [← hbusy, ← hdone] using And.intro (hbit 0) (hbit 1)
  case mpr =>
    rintro ⟨hb, hd⟩
    refine BitVec.eq_of_getLsbD_eq fun i _ => ?_
    match i with
    | 0 => simpa using hbusy.trans hb
    | 1 => simpa using hdone.trans hd
    | i + 2 => simp [BitVec.getLsbD_ofNat, Nat.testBit_succ]

/-- The RDATA received last is that of the last read. -/
theorem reading_lastRdata (s : State) (u : Nat) (prog : List HostOp) (x : Word32) : (s.reading u prog [x]).lastRdata = x := by
  simp [State.reading, State.lastRdata]

/-- With every unit idle, the one master's `wait` is a read of STATUS, on which alone it decides (R90, log 3). -/
theorem step_wait {s : State} {window u : Nat} {v : UnitState} {rest : List HostOp} (hs : IdleAt s window u v)
    (hh : s.hosts = [waitOps window ++ rest]) :
    step s = .next (s.reading u (if v.status.done then rest else waitOps window ++ rest) [v.status.word]) := by
  have hb := idle_of_idleAt hs
  obtain ⟨hts, hidle, hw, hu⟩ := hs
  have hstart : { s with master := 0, active := u, hosts := s.hosts.set 0 rest } = s.reading u rest [] := by
    simp [State.reading, hh]
  have hread : memRead (BitVec.ofNat 18 offStatus).toNat .b4 { s with master := 0, active := u, hosts := s.hosts.set 0 rest } =
      s.reading u rest [v.status.word] := by
    rw [hstart, memRead_reg (by decide) (by decide) (fun ho => absurd ho (by decide)), unit_reading hu, respond_reading]
    rfl
  have hends : v.status.word &&& 0x3 = 0x2 ↔ v.status.done = true :=
    (statusWord_and_three_eq_two_iff _).trans (and_iff_right hb)
  rw [step_of_idle hts hidle hh, hostTurn_read (by rw [hh]; rfl) hw rfl hread, HostOp.programsAfter, reading_lastRdata]
  simp only [hends, hh]
  cases v.status.done <;> rfl

/-- Settles O11: without DONE the poll is issued again, and a read of STATUS changes no unit. -/
theorem waitHangsWithoutAnAcceptedCommand : Obligations.WaitHangsWithoutAnAcceptedCommand := by
  unfold Obligations.WaitHangsWithoutAnAcceptedCommand
  intro s u window v rest hts hidle hu hdone hw hh
  have hstep := step_wait ⟨hts, hidle, hw, hu⟩ hh
  rw [hdone] at hstep
  exact ⟨_, hstep, hh.symm, rfl, hts, rfl⟩

/-- With nothing scheduled, the engine of the one busy unit completes: then no unit is busy, that unit has DONE 1, and no
master has moved (R201, log 3). -/
theorem step_of_only_busy {s : State} {u window : Nat} {v : UnitState} (hts : s.turns = []) (hu : s.units[u]? = some v)
    (hb : v.status.busy = true) (hothers : ∀ x w, s.units[x]? = some w → x ≠ u → w.status.busy = false)
    (hw : unitAt s.params window = some u) :
    ∃ t v', step s = .next t ∧ IdleAt t window u v' ∧ v'.status.done = true ∧ t.hosts = s.hosts ∧ t.rdata = s.rdata := by
  obtain ⟨hlt, rfl⟩ := List.getElem?_eq_some_iff.mp hu
  have hfirst : s.units.findIdx? (fun w => w.status.busy) = some u :=
    List.findIdx?_eq_some_iff_getElem.mpr ⟨hlt, hb, fun j hj => by
      simp [hothers j _ (List.getElem?_eq_getElem (hj.trans hlt)) hj.ne]⟩
  obtain ⟨t, v', ht, ⟨n, rfl⟩, hbusy, hdone, -⟩ := complete_completed s.units[u].pendingCmd { s with active := u }
  refine ⟨_, v', (step_of_first_busy hts hfirst).trans ((engineTurn_of_busy hu hb).trans ht),
    ⟨hts, fun w hmem => ?_, hw, List.getElem?_set_self hlt⟩, hdone, rfl, rfl⟩
  obtain ⟨x, hx⟩ := List.getElem?_of_mem hmem
  by_cases hxu : x = u
  · subst hxu
    cases (List.getElem?_set_self hlt).symm.trans hx
    exact hbusy
  · exact hothers x w ((List.getElem?_set_ne (Ne.symm hxu)).symm.trans hx) hxu

/-- Settles O10: the first step is the completion, the second the poll, which reads the STATUS the completion left. -/
theorem waitEndsAfterAnAcceptedCommand : Obligations.WaitEndsAfterAnAcceptedCommand := by
  unfold Obligations.WaitEndsAfterAnAcceptedCommand
  intro s u window v rest hts hu hb hothers hw hh
  obtain ⟨t, v', hstep, hidle, hdone, hhosts, hrdata⟩ := step_of_only_busy hts hu hb hothers hw
  have hpoll := step_wait hidle (hhosts.trans hh)
  rw [hdone] at hpoll
  refine ⟨_, _, hstep, hpoll, rfl, ?_, ?_⟩
  · simp [State.reading, hrdata]
  · rw [reading_lastRdata]
    exact (statusWord_and_three_eq_two_iff _).mpr ⟨idle_of_idleAt hidle, hdone⟩

end Sys2Proof.Machine
end
